-- ==== Sys2Proof/Word.lean ====
section
/-! DEFINITION. The machine's word types (spec/00_scope.md R6, R11). -/

namespace Sys2Proof

/-- A 32-bit word: a register, the PC, an address, an instruction (R6). -/
abbrev Word := BitVec 32

/-- One byte of memory. -/
abbrev Byte := BitVec 8

/-- The low half of a word. -/
abbrev Half := BitVec 16

/-- A general register index, 0 to 31 (R16, R63). -/
abbrev RegIndex := Fin 32

/-- A 5-bit shift count, 0 to 31 (R63). -/
abbrev Shamt := BitVec 5

/-- A 16-bit immediate field (R54). -/
abbrev Imm16 := BitVec 16

/-- A 26-bit jump target field (R54, R57). -/
abbrev Target := BitVec 26

end Sys2Proof
end

