-- ==== Sys2Proof/Machine/Bytes.lean ====
section
/-! DEFINITION. Byte order: a word and its four bytes, little-endian (spec/20_memory.md R35, R37, R40). -/

namespace Sys2Proof

/-- Byte `k` of the word: byte 0 is bits 7:0, byte 3 is bits 31:24 (R37, R40). -/
def byteOfWord (w : Word) (k : Nat) : Byte :=
  w.extractLsb' (8 * k) 8

/-- The word of four bytes, the first at the lowest address and least significant (R35). -/
def wordOfBytes (b0 b1 b2 b3 : Byte) : Word :=
  b3 ++ b2 ++ b1 ++ b0

end Sys2Proof
end

