-- ==== Sys2Proof/Syntax.lean ====
section
/-! DEFINITION. The fields of an instruction word and the 44 instructions of the opcode table
(spec/30_encoding.md R54, R65). -/

namespace Sys2Proof

/-- The eight fields the decoder takes from every word, whatever its opcode (R54). -/
structure Fields where
  opcode : BitVec 6
  rs     : RegIndex
  rt     : RegIndex
  rd     : RegIndex
  shamt  : Shamt
  funct  : BitVec 6
  imm16  : Imm16
  target : Target
  deriving DecidableEq, Repr

/-- The instructions of spec/opcode_table.json, one constructor a row. A constructor carries the
fields the instruction uses, in the order of its assembly text (R71); the fields it ignores (R67)
have no place here. Every operand's type is exactly the range of its field. -/
inductive Instr where
  -- shifts (spec/41_shift.md)
  | sll (rd rt : RegIndex) (shamt : Shamt)
  | srl (rd rt : RegIndex) (shamt : Shamt)
  | sra (rd rt : RegIndex) (shamt : Shamt)
  -- register jumps (spec/42_jump_register.md)
  | jr (rs : RegIndex)
  | jalr (rd rs : RegIndex)
  -- system (spec/43_syscall.md)
  | syscall
  -- HI and LO (spec/44_hilo.md)
  | mfhi (rd : RegIndex)
  | mthi (rs : RegIndex)
  | mflo (rd : RegIndex)
  | mtlo (rs : RegIndex)
  | mult (rs rt : RegIndex)
  | multu (rs rt : RegIndex)
  | div (rs rt : RegIndex)
  | divu (rs rt : RegIndex)
  -- register arithmetic and logic (spec/45_alu_r.md)
  | add (rd rs rt : RegIndex)
  | addu (rd rs rt : RegIndex)
  | sub (rd rs rt : RegIndex)
  | subu (rd rs rt : RegIndex)
  | and (rd rs rt : RegIndex)
  | or (rd rs rt : RegIndex)
  | xor (rd rs rt : RegIndex)
  | nor (rd rs rt : RegIndex)
  | slt (rd rs rt : RegIndex)
  -- branches (spec/46_branch.md)
  | bltz (rs : RegIndex) (imm16 : Imm16)
  | bgez (rs : RegIndex) (imm16 : Imm16)
  | beq (rs rt : RegIndex) (imm16 : Imm16)
  | bne (rs rt : RegIndex) (imm16 : Imm16)
  | blez (rs : RegIndex) (imm16 : Imm16)
  | bgtz (rs : RegIndex) (imm16 : Imm16)
  -- jumps (spec/47_jump.md)
  | j (target : Target)
  | jal (target : Target)
  -- immediate arithmetic and logic (spec/48_alu_imm.md)
  | addi (rt rs : RegIndex) (imm16 : Imm16)
  | addiu (rt rs : RegIndex) (imm16 : Imm16)
  | slti (rt rs : RegIndex) (imm16 : Imm16)
  | andi (rt rs : RegIndex) (imm16 : Imm16)
  | ori (rt rs : RegIndex) (imm16 : Imm16)
  | xori (rt rs : RegIndex) (imm16 : Imm16)
  | lui (rt : RegIndex) (imm16 : Imm16)
  -- loads and stores (spec/49_load_store.md)
  | lb (rt rs : RegIndex) (imm16 : Imm16)
  | lh (rt rs : RegIndex) (imm16 : Imm16)
  | lw (rt rs : RegIndex) (imm16 : Imm16)
  | sb (rt rs : RegIndex) (imm16 : Imm16)
  | sh (rt rs : RegIndex) (imm16 : Imm16)
  | sw (rt rs : RegIndex) (imm16 : Imm16)
  deriving DecidableEq, Repr

end Sys2Proof
end

