-- ==== Sys2Proof/Decode.lean ====
section
/-! DEFINITION. The decoder and the encoder (spec/30_encoding.md). The decoder is total: a word the
opcode map does not list is rejected by name (R66), and a byte list shorter than one instruction is
rejected as truncated. -/

namespace Sys2Proof

/-- Why a word or a byte list is no instruction. The three unimplemented kinds are not errors of the
machine: it runs such a word as a no-op (spec/40_cycle.md R79). -/
inductive DecodeReject where
  /-- Opcode 0 with a funct that is none of the 23 listed (R66). -/
  | unimplementedFunct (funct : BitVec 6)
  /-- Opcode 1 with an rt other than 0 and 1 (R58, R66). -/
  | unimplementedRegimm (rt : RegIndex)
  /-- An opcode that is not listed (R66). -/
  | unimplementedOpcode (opcode : BitVec 6)
  /-- Fewer than the 4 bytes of an instruction (R53). -/
  | truncated (bytes : Nat)
  deriving DecidableEq, Repr

/-! ## Field extraction (R54) -/

/-- Every field of the word. -/
def fieldsOf (w : Word) : Fields where
  opcode := w.extractLsb' 26 6
  rs     := (w.extractLsb' 21 5).toFin
  rt     := (w.extractLsb' 16 5).toFin
  rd     := (w.extractLsb' 11 5).toFin
  shamt  := w.extractLsb' 6 5
  funct  := w.extractLsb' 0 6
  imm16  := w.extractLsb' 0 16
  target := w.extractLsb' 0 26

/-! ## Selection (R64, R65) -/

/-- R-format, opcode 0: dispatch on funct. -/
def selectFunct (f : Fields) : Except DecodeReject Instr :=
  match f.funct.toNat with
  | 0x00 => .ok (.sll f.rd f.rt f.shamt)
  | 0x02 => .ok (.srl f.rd f.rt f.shamt)
  | 0x03 => .ok (.sra f.rd f.rt f.shamt)
  | 0x08 => .ok (.jr f.rs)
  | 0x09 => .ok (.jalr f.rd f.rs)
  | 0x0C => .ok .syscall
  | 0x10 => .ok (.mfhi f.rd)
  | 0x11 => .ok (.mthi f.rs)
  | 0x12 => .ok (.mflo f.rd)
  | 0x13 => .ok (.mtlo f.rs)
  | 0x18 => .ok (.mult f.rs f.rt)
  | 0x19 => .ok (.multu f.rs f.rt)
  | 0x1A => .ok (.div f.rs f.rt)
  | 0x1B => .ok (.divu f.rs f.rt)
  | 0x20 => .ok (.add f.rd f.rs f.rt)
  | 0x21 => .ok (.addu f.rd f.rs f.rt)
  | 0x22 => .ok (.sub f.rd f.rs f.rt)
  | 0x23 => .ok (.subu f.rd f.rs f.rt)
  | 0x24 => .ok (.and f.rd f.rs f.rt)
  | 0x25 => .ok (.or f.rd f.rs f.rt)
  | 0x26 => .ok (.xor f.rd f.rs f.rt)
  | 0x27 => .ok (.nor f.rd f.rs f.rt)
  | 0x2A => .ok (.slt f.rd f.rs f.rt)
  | _    => .error (.unimplementedFunct f.funct)

/-- REGIMM, opcode 1: dispatch on rt (R58). -/
def selectRegimm (f : Fields) : Except DecodeReject Instr :=
  match f.rt.val with
  | 0 => .ok (.bltz f.rs f.imm16)
  | 1 => .ok (.bgez f.rs f.imm16)
  | _ => .error (.unimplementedRegimm f.rt)

/-- The instruction the fields select: on funct under opcode 0, on rt under opcode 1, otherwise on
the opcode (R64). Fields the instruction does not use are not looked at (R67). -/
def select (f : Fields) : Except DecodeReject Instr :=
  match f.opcode.toNat with
  | 0x00 => selectFunct f
  | 0x01 => selectRegimm f
  | 0x02 => .ok (.j f.target)
  | 0x03 => .ok (.jal f.target)
  | 0x04 => .ok (.beq f.rs f.rt f.imm16)
  | 0x05 => .ok (.bne f.rs f.rt f.imm16)
  | 0x06 => .ok (.blez f.rs f.imm16)
  | 0x07 => .ok (.bgtz f.rs f.imm16)
  | 0x08 => .ok (.addi f.rt f.rs f.imm16)
  | 0x09 => .ok (.addiu f.rt f.rs f.imm16)
  | 0x0A => .ok (.slti f.rt f.rs f.imm16)
  | 0x0C => .ok (.andi f.rt f.rs f.imm16)
  | 0x0D => .ok (.ori f.rt f.rs f.imm16)
  | 0x0E => .ok (.xori f.rt f.rs f.imm16)
  | 0x0F => .ok (.lui f.rt f.imm16)
  | 0x20 => .ok (.lb f.rt f.rs f.imm16)
  | 0x21 => .ok (.lh f.rt f.rs f.imm16)
  | 0x23 => .ok (.lw f.rt f.rs f.imm16)
  | 0x28 => .ok (.sb f.rt f.rs f.imm16)
  | 0x29 => .ok (.sh f.rt f.rs f.imm16)
  | 0x2B => .ok (.sw f.rt f.rs f.imm16)
  | _    => .error (.unimplementedOpcode f.opcode)

/-- The decoder over a word: field extraction, then selection (spec/40_cycle.md R76). -/
def decode (w : Word) : Except DecodeReject Instr :=
  select (fieldsOf w)

/-- The decoder over bytes as they lie in memory: the first four make one little-endian word (R53);
the rest of the list is returned. -/
def decodeBytes : List Byte → Except DecodeReject (Instr × List Byte)
  | b0 :: b1 :: b2 :: b3 :: rest => (decode (wordOfBytes b0 b1 b2 b3)).map (·, rest)
  | short => .error (.truncated short.length)

/-- The instruction whose bits are `w`, laid out as the hardware stores it and given to the decoder.
Bits of `w` at or above `nbits` are not part of the instruction and read 0. -/
def decodeTableWord (nbits w : Nat) : Option Instr :=
  let word : Word := BitVec.ofNat 32 (w % 2 ^ nbits)
  match decodeBytes [byteOfWord word 0, byteOfWord word 1, byteOfWord word 2, byteOfWord word 3] with
  | .ok (i, _) => some i
  | .error _   => none

/-! ## The encoder (R55 to R58) -/

/-- R-format: opcode 0, rs, rt, rd, shamt, funct (R55). -/
def encodeR (rs rt rd : RegIndex) (shamt : Shamt) (funct : BitVec 6) : Word :=
  0#6 ++ BitVec.ofFin (w := 5) rs ++ BitVec.ofFin (w := 5) rt ++ BitVec.ofFin (w := 5) rd ++ shamt ++ funct

/-- I-format and REGIMM: opcode, rs, rt, imm16 (R56, R58). -/
def encodeI (opcode : BitVec 6) (rs rt : RegIndex) (imm16 : Imm16) : Word :=
  opcode ++ BitVec.ofFin (w := 5) rs ++ BitVec.ofFin (w := 5) rt ++ imm16

/-- J-format: opcode, target (R57). -/
def encodeJ (opcode : BitVec 6) (target : Target) : Word :=
  opcode ++ target

/-- The word of an instruction, with 0 in every field the instruction does not use. -/
def encode : Instr → Word
  | .sll rd rt sh   => encodeR 0 rt rd sh 0x00
  | .srl rd rt sh   => encodeR 0 rt rd sh 0x02
  | .sra rd rt sh   => encodeR 0 rt rd sh 0x03
  | .jr rs          => encodeR rs 0 0 0 0x08
  | .jalr rd rs     => encodeR rs 0 rd 0 0x09
  | .syscall        => encodeR 0 0 0 0 0x0C
  | .mfhi rd        => encodeR 0 0 rd 0 0x10
  | .mthi rs        => encodeR rs 0 0 0 0x11
  | .mflo rd        => encodeR 0 0 rd 0 0x12
  | .mtlo rs        => encodeR rs 0 0 0 0x13
  | .mult rs rt     => encodeR rs rt 0 0 0x18
  | .multu rs rt    => encodeR rs rt 0 0 0x19
  | .div rs rt      => encodeR rs rt 0 0 0x1A
  | .divu rs rt     => encodeR rs rt 0 0 0x1B
  | .add rd rs rt   => encodeR rs rt rd 0 0x20
  | .addu rd rs rt  => encodeR rs rt rd 0 0x21
  | .sub rd rs rt   => encodeR rs rt rd 0 0x22
  | .subu rd rs rt  => encodeR rs rt rd 0 0x23
  | .and rd rs rt   => encodeR rs rt rd 0 0x24
  | .or rd rs rt    => encodeR rs rt rd 0 0x25
  | .xor rd rs rt   => encodeR rs rt rd 0 0x26
  | .nor rd rs rt   => encodeR rs rt rd 0 0x27
  | .slt rd rs rt   => encodeR rs rt rd 0 0x2A
  | .bltz rs imm    => encodeI 0x01 rs 0 imm
  | .bgez rs imm    => encodeI 0x01 rs 1 imm
  | .beq rs rt imm  => encodeI 0x04 rs rt imm
  | .bne rs rt imm  => encodeI 0x05 rs rt imm
  | .blez rs imm    => encodeI 0x06 rs 0 imm
  | .bgtz rs imm    => encodeI 0x07 rs 0 imm
  | .j target       => encodeJ 0x02 target
  | .jal target     => encodeJ 0x03 target
  | .addi rt rs imm => encodeI 0x08 rs rt imm
  | .addiu rt rs imm => encodeI 0x09 rs rt imm
  | .slti rt rs imm => encodeI 0x0A rs rt imm
  | .andi rt rs imm => encodeI 0x0C rs rt imm
  | .ori rt rs imm  => encodeI 0x0D rs rt imm
  | .xori rt rs imm => encodeI 0x0E rs rt imm
  | .lui rt imm     => encodeI 0x0F 0 rt imm
  | .lb rt rs imm   => encodeI 0x20 rs rt imm
  | .lh rt rs imm   => encodeI 0x21 rs rt imm
  | .lw rt rs imm   => encodeI 0x23 rs rt imm
  | .sb rt rs imm   => encodeI 0x28 rs rt imm
  | .sh rt rs imm   => encodeI 0x29 rs rt imm
  | .sw rt rs imm   => encodeI 0x2B rs rt imm

/-! ## The opcode table as data (spec/opcode_table.json) -/

/-- One row: the bits that select the instruction, and its operand bits. Every other bit is ignored
(R67). -/
structure OpcodeRow where
  mnemonic : String
  pattern  : Word
  mask     : Word
  operands : Word
  deriving DecidableEq, Repr

/-- The mask of an R-format row: opcode and funct. -/
def maskR : Word := 0xFC00003F
/-- The mask of a REGIMM row: opcode and rt. -/
def maskRegimm : Word := 0xFC1F0000
/-- The mask of an I-format or J-format row: opcode. -/
def maskOp : Word := 0xFC000000
/-- Bits 25:21. -/
def bitsRs : Word := 0x03E00000
/-- Bits 20:16. -/
def bitsRt : Word := 0x001F0000
/-- Bits 15:11. -/
def bitsRd : Word := 0x0000F800
/-- Bits 10:6. -/
def bitsShamt : Word := 0x000007C0
/-- Bits 15:0. -/
def bitsImm16 : Word := 0x0000FFFF
/-- Bits 25:0. -/
def bitsTarget : Word := 0x03FFFFFF

/-- The row of an instruction, as spec/opcode_table.json gives its match, mask and fields. -/
def opcodeRow : Instr → OpcodeRow
  | .sll _ _ _   => ⟨"SLL", 0x00000000, maskR, bitsRt ||| bitsRd ||| bitsShamt⟩
  | .srl _ _ _   => ⟨"SRL", 0x00000002, maskR, bitsRt ||| bitsRd ||| bitsShamt⟩
  | .sra _ _ _   => ⟨"SRA", 0x00000003, maskR, bitsRt ||| bitsRd ||| bitsShamt⟩
  | .jr _        => ⟨"JR", 0x00000008, maskR, bitsRs⟩
  | .jalr _ _    => ⟨"JALR", 0x00000009, maskR, bitsRs ||| bitsRd⟩
  | .syscall     => ⟨"SYSCALL", 0x0000000C, maskR, 0⟩
  | .mfhi _      => ⟨"MFHI", 0x00000010, maskR, bitsRd⟩
  | .mthi _      => ⟨"MTHI", 0x00000011, maskR, bitsRs⟩
  | .mflo _      => ⟨"MFLO", 0x00000012, maskR, bitsRd⟩
  | .mtlo _      => ⟨"MTLO", 0x00000013, maskR, bitsRs⟩
  | .mult _ _    => ⟨"MULT", 0x00000018, maskR, bitsRs ||| bitsRt⟩
  | .multu _ _   => ⟨"MULTU", 0x00000019, maskR, bitsRs ||| bitsRt⟩
  | .div _ _     => ⟨"DIV", 0x0000001A, maskR, bitsRs ||| bitsRt⟩
  | .divu _ _    => ⟨"DIVU", 0x0000001B, maskR, bitsRs ||| bitsRt⟩
  | .add _ _ _   => ⟨"ADD", 0x00000020, maskR, bitsRs ||| bitsRt ||| bitsRd⟩
  | .addu _ _ _  => ⟨"ADDU", 0x00000021, maskR, bitsRs ||| bitsRt ||| bitsRd⟩
  | .sub _ _ _   => ⟨"SUB", 0x00000022, maskR, bitsRs ||| bitsRt ||| bitsRd⟩
  | .subu _ _ _  => ⟨"SUBU", 0x00000023, maskR, bitsRs ||| bitsRt ||| bitsRd⟩
  | .and _ _ _   => ⟨"AND", 0x00000024, maskR, bitsRs ||| bitsRt ||| bitsRd⟩
  | .or _ _ _    => ⟨"OR", 0x00000025, maskR, bitsRs ||| bitsRt ||| bitsRd⟩
  | .xor _ _ _   => ⟨"XOR", 0x00000026, maskR, bitsRs ||| bitsRt ||| bitsRd⟩
  | .nor _ _ _   => ⟨"NOR", 0x00000027, maskR, bitsRs ||| bitsRt ||| bitsRd⟩
  | .slt _ _ _   => ⟨"SLT", 0x0000002A, maskR, bitsRs ||| bitsRt ||| bitsRd⟩
  | .bltz _ _    => ⟨"BLTZ", 0x04000000, maskRegimm, bitsRs ||| bitsImm16⟩
  | .bgez _ _    => ⟨"BGEZ", 0x04010000, maskRegimm, bitsRs ||| bitsImm16⟩
  | .j _         => ⟨"J", 0x08000000, maskOp, bitsTarget⟩
  | .jal _       => ⟨"JAL", 0x0C000000, maskOp, bitsTarget⟩
  | .beq _ _ _   => ⟨"BEQ", 0x10000000, maskOp, bitsRs ||| bitsRt ||| bitsImm16⟩
  | .bne _ _ _   => ⟨"BNE", 0x14000000, maskOp, bitsRs ||| bitsRt ||| bitsImm16⟩
  | .blez _ _    => ⟨"BLEZ", 0x18000000, maskOp, bitsRs ||| bitsImm16⟩
  | .bgtz _ _    => ⟨"BGTZ", 0x1C000000, maskOp, bitsRs ||| bitsImm16⟩
  | .addi _ _ _  => ⟨"ADDI", 0x20000000, maskOp, bitsRs ||| bitsRt ||| bitsImm16⟩
  | .addiu _ _ _ => ⟨"ADDIU", 0x24000000, maskOp, bitsRs ||| bitsRt ||| bitsImm16⟩
  | .slti _ _ _  => ⟨"SLTI", 0x28000000, maskOp, bitsRs ||| bitsRt ||| bitsImm16⟩
  | .andi _ _ _  => ⟨"ANDI", 0x30000000, maskOp, bitsRs ||| bitsRt ||| bitsImm16⟩
  | .ori _ _ _   => ⟨"ORI", 0x34000000, maskOp, bitsRs ||| bitsRt ||| bitsImm16⟩
  | .xori _ _ _  => ⟨"XORI", 0x38000000, maskOp, bitsRs ||| bitsRt ||| bitsImm16⟩
  | .lui _ _     => ⟨"LUI", 0x3C000000, maskOp, bitsRt ||| bitsImm16⟩
  | .lb _ _ _    => ⟨"LB", 0x80000000, maskOp, bitsRs ||| bitsRt ||| bitsImm16⟩
  | .lh _ _ _    => ⟨"LH", 0x84000000, maskOp, bitsRs ||| bitsRt ||| bitsImm16⟩
  | .lw _ _ _    => ⟨"LW", 0x8C000000, maskOp, bitsRs ||| bitsRt ||| bitsImm16⟩
  | .sb _ _ _    => ⟨"SB", 0xA0000000, maskOp, bitsRs ||| bitsRt ||| bitsImm16⟩
  | .sh _ _ _    => ⟨"SH", 0xA4000000, maskOp, bitsRs ||| bitsRt ||| bitsImm16⟩
  | .sw _ _ _    => ⟨"SW", 0xAC000000, maskOp, bitsRs ||| bitsRt ||| bitsImm16⟩

/-- The word selects the instruction's row: its selecting bits are the row's (R64, R67). -/
def OpcodeRow.selects (r : OpcodeRow) (w : Word) : Prop :=
  w &&& r.mask = r.pattern

end Sys2Proof
end

