-- ==== Sys2Proof/Config.lean ====
section
/-! DEFINITION. The parameters the spec leaves to the configuration (spec/00_scope.md R7), as plain
data, and the three open functions of the spec's faithful modes, as constants with no body. -/

namespace Sys2Proof

/-- A memory region `(name, begin, end)`: the byte addresses `first` to `last`, both included
(spec/20_memory.md R32). -/
structure Region where
  name  : String
  first : Word
  last  : Word
  deriving DecidableEq, Repr

/-- The region holds the byte address `a` (R32). -/
def Region.contains (g : Region) (a : Nat) : Bool :=
  decide (g.first.toNat ≤ a) && decide (a ≤ g.last.toNat)

/-- `SRA_MODE` (spec/41_shift.md R89, R90). -/
inductive SraMode where
  | arithmetic
  | faithful
  deriving DecidableEq, Repr

/-- `BRANCH_MODE` (spec/46_branch.md R114). -/
inductive BranchMode where
  | corrected
  | faithful
  deriving DecidableEq, Repr

/-- `DIV_OVF`: what DIV of 0x80000000 by 0xFFFFFFFF does (spec/44_hilo.md R101): a model fault, or
the pair it leaves in LO and HI. -/
inductive DivOvf where
  | fault
  | pair (lo hi : Word)
  deriving DecidableEq, Repr

/-- `SUBWORD_UNALIGNED` (spec/49_load_store.md R131). -/
inductive SubwordUnaligned where
  | fault
  | bytewise
  deriving DecidableEq, Repr

/-- The named parameters of R7. The core never changes them; State carries them so that a claim
about every state is a claim about every configuration (log entry 1). -/
structure Config where
  regions          : List Region
  textBase         : Word
  initGpr          : Vector Word 32
  initHi           : Word
  initLo           : Word
  sraMode          : SraMode
  branchMode       : BranchMode
  divOvf           : DivOvf
  subwordUnaligned : SubwordUnaligned
  deriving DecidableEq, Repr

/-- `BLEZ_FAITHFUL`: the open taken-condition of BLEZ in faithful mode. Nothing may be assumed of
it (R114, D5; log entry 12). -/
opaque Config.blezFaithful : Word → Bool

/-- `BGTZ_FAITHFUL`: the open taken-condition of BGTZ in faithful mode (R114, D5; log entry 12). -/
opaque Config.bgtzFaithful : Word → Bool

/-- `SRA_FAITHFUL`: the open result of SRA in faithful mode for a negative operand and a count of
at least 1 (R90, D6; log entry 13). -/
opaque Config.sraFaithful : Word → Shamt → Word

end Sys2Proof
end

