-- ==== Sys2Proof/Machine/TestConfig.lean ====
section
/-! DEFINITION. The configuration the state after reset is given with: the spec's test configuration
(spec/92_eei_decisions.md D27). It is data for `State.reset` only; no meaning reads it (log entries
2 and 3). -/

namespace Sys2Proof.Machine

/-- The text region of D27. -/
def textRegion : Region := ⟨"text", 0x00400000, 0x0040FFFF⟩

/-- The data region of D27. -/
def dataRegion : Region := ⟨"data", 0x10010000, 0x1001FFFF⟩

/-- The stack region of D27. -/
def stackRegion : Region := ⟨"stack", 0x7FFF0000, 0x7FFFFFFF⟩

/-- D27: three regions, `TEXT_BASE` = 0x00400000, all initial values 0, every mode at its default
(`DIV_OVF` default of D7). -/
def testConfig : Config where
  regions          := [textRegion, dataRegion, stackRegion]
  textBase         := 0x00400000
  initGpr          := Vector.replicate 32 0
  initHi           := 0
  initLo           := 0
  sraMode          := .arithmetic
  branchMode       := .corrected
  divOvf           := .pair 0x80000000 0x00000000
  subwordUnaligned := .fault

end Sys2Proof.Machine
end

