-- ==== Sys2Proof/Machine/State.lean ====
section
/-! DEFINITION. The whole state of the machine (spec/10_state.md), the reasons a step can stop, and
the state after reset. -/

namespace Sys2Proof.Machine

/-- The model faults of spec/60_exceptions.md R140: the spec's stop for a behaviour the source calls
undefined, not an exception of the hardware (R14, R138). -/
inductive Fault where
  /-- Raised by fetch, LW and SW on an address that is no multiple of 4, and by LB, LH, SB and SH as
  `SUBWORD_UNALIGNED` says (R41, R131, R140). Safe: the machine stops where the source's result is
  undefined (log entries 8, 9). -/
  | misalignedAccess
  /-- Raised by DIV of 0x80000000 by 0xFFFFFFFF, only when the configuration sets `DIV_OVF = fault`
  (R101, R140). Safe: the machine stops where the source gives no result (log entry 10). -/
  | divOverflow
  deriving DecidableEq, Repr

/-- Why a step has no meaning. No meaning of this model is refused: every instruction of the table
has its effect. -/
inductive Refusal where
  /-- Raised only by an arm of `exec` whose instruction has no meaning yet; there is none. Safe. -/
  | notModelled (mnemonic : String)
  deriving DecidableEq, Repr

/-- What a step or a meaning answers. -/
abbrev Result (State : Type) := Host.Outcome State Fault Refusal

/-- Memory as (address, byte) pairs. An address that is not listed reads 0 (spec/20_memory.md R36,
R48), so no pair holds the byte 0, and the addresses rise strictly: equal memories are equal lists. -/
abbrev Memory := List Host.Cell

/-- The list is in canonical form and lists no address below `lo`. -/
def Memory.wfFrom (lo : Nat) : Memory → Bool
  | []             => true
  | (a, b) :: rest => decide (lo ≤ a) && b != 0 && Memory.wfFrom (a + 1) rest

/-- The list is in canonical form: addresses strictly rising, no byte equal to what an unlisted
address reads as. -/
def Memory.wf (m : Memory) : Bool :=
  m.wfFrom 0

/-- The complete state of the core (spec/10_state.md, `Core`). -/
structure State where
  /-- The parameters of R7, fixed for the life of the core (log entry 1). -/
  config : Config
  /-- The program counter (R19): the address of the instruction that is next or running. -/
  pc     : Word
  /-- The general registers `x[0]` to `x[31]`; register 0 is ordinary (R16, R17). -/
  gpr    : Vector Word 32
  /-- HI (R21). -/
  hi     : Word
  /-- LO (R21). -/
  lo     : Word
  /-- The RunFlag: true = Running, false = Halted (R22). -/
  run    : Bool
  /-- The InstructionCount (R23). -/
  icount : Word
  /-- The ProgramImage kept for reset (R24). -/
  image  : List Word
  /-- The bytes of the memory regions (R32). -/
  mem    : Memory
  /-- The model fault the core is stopped with; none in every state the source defines (R28). -/
  fault  : Option Fault
  deriving DecidableEq, Repr

/-- The machine right after reset with no program loaded (R31, R162, R165): PC at `TEXT_BASE`,
registers, HI and LO at their initial values, Running, count 0, every region zero. The configuration
is the spec's test configuration (log entries 2, 3, 4). -/
def State.reset : State where
  config := testConfig
  pc     := testConfig.textBase
  gpr    := testConfig.initGpr
  hi     := testConfig.initHi
  lo     := testConfig.initLo
  run    := true
  icount := 0
  image  := []
  mem    := []
  fault  := none

end Sys2Proof.Machine
end

