-- ==== Sys2Proof/Machine/Ops.lean ====
section
/-! DEFINITION. The shared operations over registers, memory and the step's end: the accessors every
meaning goes through. The machine takes no exception (spec/60_exceptions.md R138, R143, R144), so there
is no exception entry and no return from one here; a model fault (R14, R28) is the `.error` of a memory
operation, which a meaning answers as `.fault`. -/

namespace Sys2Proof.Machine

/-! ## General registers, HI and LO -/

/-- `x[r]` of the current state (spec/00_scope.md R12). Register 0 is read like any other (R17). -/
def State.reg (s : State) (r : RegIndex) : Word :=
  s.gpr[r]

/-- `x[r] <- v`. Register 0 is written like any other (R17). -/
def State.setReg (s : State) (r : RegIndex) (v : Word) : State :=
  { s with gpr := s.gpr.set r v }

/-- `hi <- v` (R21). -/
def State.setHi (s : State) (v : Word) : State :=
  { s with hi := v }

/-- `lo <- v` (R21). -/
def State.setLo (s : State) (v : Word) : State :=
  { s with lo := v }

/-! ## The end of a step (spec/40_cycle.md R74, R77, R80) -/

/-- Commit with the PC written by the instruction: `pc <- target`, `icount <- icount + 1` modulo
2^32 (R23, R74, R78). -/
def State.commitTo (s : State) (target : Word) : State :=
  { s with pc := target, icount := s.icount + 1 }

/-- Commit with the default advance: `pc <- pc + 4` modulo 2^32 (R77). -/
def State.commit (s : State) : State :=
  s.commitTo (s.pc + 4)

/-- The whole effect of an instruction that only computes a register: `x[r] <- v`, then commit. -/
def writeReg (s : State) (r : RegIndex) (v : Word) : Result State :=
  .next (s.setReg r v).commit

/-! ## Memory (spec/20_memory.md) -/

/-- The byte listed at the address, 0 if none is. -/
def Memory.readByte : Memory → Nat → Byte
  | [], _             => 0
  | (a', b) :: rest, a => if a = a' then b else Memory.readByte rest a

/-- The list with `b` at the address `a`, in canonical form. -/
def Memory.writeByte : Memory → Nat → Byte → Memory
  | [], a, b => if b = 0 then [] else [(a, b)]
  | (a', b') :: rest, a, b =>
    if a < a' then
      if b = 0 then (a', b') :: rest else (a, b) :: (a', b') :: rest
    else if a = a' then
      if b = 0 then rest else (a, b) :: rest
    else (a', b') :: Memory.writeByte rest a b

/-- The little-endian word of the four bytes from `a` on (R35). -/
def Memory.readWord (m : Memory) (a : Nat) : Word :=
  wordOfBytes (m.readByte a) (m.readByte (a + 1)) (m.readByte (a + 2)) (m.readByte (a + 3))

/-- The four little-endian bytes of `v` stored from `a` on (R37). -/
def Memory.writeWord (m : Memory) (a : Nat) (v : Word) : Memory :=
  (((m.writeByte a (byteOfWord v 0)).writeByte (a + 1) (byteOfWord v 1)).writeByte (a + 2)
    (byteOfWord v 2)).writeByte (a + 3) (byteOfWord v 3)

/-- Some region of the configuration contains the byte address (R32, R35). -/
def mapped (c : Config) (a : Nat) : Bool :=
  c.regions.any (Region.contains · a)

/-- The byte at an address as memory holds it: 0 outside every region (R32, R36). It is the model's
read of one byte; the core itself reads only words (R43). -/
def State.byteAt (s : State) (a : Nat) : Byte :=
  if mapped s.config a then s.mem.readByte a else 0

/-- The address is a multiple of 4 (R41). -/
def aligned (a : Word) : Bool :=
  decide (a.toNat % 4 = 0)

/-- `MemRead(a, 4)`: the alignment check first, then the word if a region contains `a`, else 0
(R35, R36, R41). -/
def memRead (s : State) (a : Word) : Except Fault Word :=
  if aligned a then
    .ok (if mapped s.config a.toNat then s.mem.readWord a.toNat else 0)
  else .error .misalignedAccess

/-- `MemWrite(a, 4, v)`: the alignment check first, then the four bytes if a region contains `a`,
else nothing (R37, R38, R41). -/
def memWrite (s : State) (a v : Word) : Except Fault State :=
  if aligned a then
    .ok (if mapped s.config a.toNat then { s with mem := s.mem.writeWord a.toNat v } else s)
  else .error .misalignedAccess

end Sys2Proof.Machine
end

