-- ==== Sys2Proof/Machine/Cycle.lean ====
section
/-! DEFINITION. The parts of a step around an instruction's own effect (spec/40_cycle.md): the fetch,
the unimplemented word, the halted and the faulted core, and the diagnostic a step puts out. -/

namespace Sys2Proof.Machine

/-- R75: the instruction word is `MemRead(pc, 4)` of the current memory. -/
def fetch (s : State) : Except Fault Word :=
  memRead s s.pc

/-- R79: a word that selects no instruction is a no-op. The PC advances by 4 and the cycle counts. -/
def execUnimplemented (s : State) : Result State :=
  .next s.commit

/-- R83: a step of a halted core returns without effect (D15; log entry 14). -/
def stepHalted (s : State) : Result State :=
  .next s

/-- R28, R153: a core with a model fault has no step; the fault stays its answer (log entry 15). -/
def stepFaulted (k : Fault) (_s : State) : Result State :=
  .fault k

/-- A diagnostic output (R29). -/
inductive Diag where
  | unimplemented (pc word : Word)
  deriving DecidableEq, Repr

/-- The diagnostic that a step from this state puts out, if it puts one out: a running core that
fetches a word selecting no instruction (R29, R79; log entry 16). -/
def diagnostic (s : State) : Option Diag :=
  if s.run && s.fault.isNone then
    match fetch s with
    | .error _ => none
    | .ok w    =>
      match decode w with
      | .ok _    => none
      | .error _ => some (.unimplemented s.pc w)
  else none

/-- Where the next fetch can read a stored word: the PC itself if it is aligned and in a region,
otherwise `TEXT_BASE`. -/
def fetchAddress (s : State) : Word :=
  if aligned s.pc && mapped s.config s.pc.toNat then s.pc else s.config.textBase

end Sys2Proof.Machine
end

