-- ==== Sys2Proof/Machine/Flags.lean ====
section
/-! DEFINITION. Conditions. The core has no status flags or condition codes (spec/10_state.md R26):
a comparison writes 0 or 1 into a general register, and a branch compares registers directly. These
are all of its condition computations. -/

namespace Sys2Proof.Machine

/-- `a <s b` (spec/00_scope.md R11). -/
def signedLess (a b : Word) : Bool :=
  decide (a.toInt < b.toInt)

/-- The word a comparison writes: 1 if it holds, else 0 (R26). -/
def conditionWord (c : Bool) : Word :=
  if c then 1 else 0

/-- BLEZ's taken-condition: `signed(v) <= 0`, or the open predicate in faithful mode (R114, R117). -/
def blezTaken (mode : BranchMode) (v : Word) : Bool :=
  match mode with
  | .corrected => decide (v.toInt ≤ 0)
  | .faithful  => Config.blezFaithful v

/-- BGTZ's taken-condition: `signed(v) > 0`, or the open predicate in faithful mode (R114, R118). -/
def bgtzTaken (mode : BranchMode) (v : Word) : Bool :=
  match mode with
  | .corrected => decide (0 < v.toInt)
  | .faithful  => Config.bgtzFaithful v

/-- BLTZ's taken-condition: bit 31 is 1 (R119). -/
def bltzTaken (v : Word) : Bool :=
  v.getLsbD 31

/-- BGEZ's taken-condition: bit 31 is 0 (R120). -/
def bgezTaken (v : Word) : Bool :=
  !v.getLsbD 31

end Sys2Proof.Machine
end

