-- ==== Sys2Proof/Machine/Operands.lean ====
section
/-! DEFINITION. Operand forms: immediates, branch offsets, jump targets, effective addresses and the
place of a byte or halfword in its word (spec/30_encoding.md R59 to R62, spec/46_branch.md R113,
spec/49_load_store.md R130, R131). -/

namespace Sys2Proof.Machine

/-- `sext_32(imm16)` (R10, R59). -/
def signExtend16 (imm : Imm16) : Word :=
  imm.signExtend 32

/-- `zext_32(imm16)` (R10, R60). -/
def zeroExtend16 (imm : Imm16) : Word :=
  imm.setWidth 32

/-- `imm16 ++ 0^16`, LUI's operand (R60). -/
def upperImmediate (imm : Imm16) : Word :=
  imm ++ 0#16

/-- `sext_32(imm16) << 2` (R61). -/
def branchOffset (imm : Imm16) : Word :=
  signExtend16 imm <<< 2

/-- The taken-branch target: the branch's own address plus the offset, modulo 2^32 (R113). -/
def branchTarget (pc : Word) (imm : Imm16) : Word :=
  pc + branchOffset imm

/-- The top 4 bits of an address (R62). -/
def jumpRegionMask : Word :=
  0xF0000000

/-- The jump target: the top 4 bits of the jump's own address and the 26-bit target times 4 (R62). -/
def jumpTarget (pc : Word) (target : Target) : Word :=
  (pc &&& jumpRegionMask) ||| (target.setWidth 32 <<< 2)

/-- The effective address of a load or store, modulo 2^32 (R130). -/
def effectiveAddress (s : State) (rs : RegIndex) (imm : Imm16) : Word :=
  s.reg rs + signExtend16 imm

/-- The two sub-word access sizes (R131). -/
inductive SubwordSize where
  | byte
  | half
  deriving DecidableEq, Repr

/-- All address bits but the two of the byte lane (R131). -/
def wordAddressMask : Word :=
  0xFFFFFFFC

/-- `SubwordLocate(EA, n)`: the word address and the byte lane of a byte or halfword access, or the
model fault of an effective address the mode does not admit (R131, D14; log entry 9). -/
def subwordLocate (mode : SubwordUnaligned) (ea : Word) (size : SubwordSize) :
    Except Fault (Word × Nat) :=
  if aligned ea then .ok (ea, 0)
  else
    match mode, size with
    | .fault, _        => .error .misalignedAccess
    | .bytewise, .byte => .ok (ea &&& wordAddressMask, ea.toNat % 4)
    | .bytewise, .half =>
      if ea.toNat % 2 = 1 then .error .misalignedAccess
      else .ok (ea &&& wordAddressMask, ea.toNat % 4)

/-- Byte lane `k` of the word, `w[8k+7 : 8k]` (R131). -/
def byteLane (w : Word) (k : Nat) : Byte :=
  w.extractLsb' (8 * k) 8

/-- The halfword from byte lane `k` on, `w[8k+15 : 8k]` (R131). -/
def halfLane (w : Word) (k : Nat) : Half :=
  w.extractLsb' (8 * k) 16

/-- The bits of byte lane 0. -/
def byteMask : Word :=
  0x000000FF

/-- The bits of the halfword from byte lane 0 on. -/
def halfMask : Word :=
  0x0000FFFF

/-- The word with byte lane `k` replaced (R135). -/
def spliceByte (w : Word) (k : Nat) (b : Byte) : Word :=
  (w &&& ~~~(byteMask <<< (8 * k))) ||| (b.setWidth 32 <<< (8 * k))

/-- The word with the halfword from byte lane `k` on replaced (R136). -/
def spliceHalf (w : Word) (k : Nat) (h : Half) : Word :=
  (w &&& ~~~(halfMask <<< (8 * k))) ||| (h.setWidth 32 <<< (8 * k))

end Sys2Proof.Machine
end

