-- ==== Sys2Proof/Machine/AluImm.lean ====
section
/-! DEFINITION. Immediate arithmetic and logic (spec/48_alu_imm.md R123 to R129). -/

namespace Sys2Proof.Machine

/-- R123: `x[rt] <- (x[rs] + sext_32(imm16)) mod 2^32`, no trap on overflow. -/
def execAddi (rt rs : RegIndex) (imm : Imm16) (s : State) : Result State :=
  writeReg s rt (s.reg rs + signExtend16 imm)

/-- R124: as ADDI. -/
def execAddiu (rt rs : RegIndex) (imm : Imm16) (s : State) : Result State :=
  writeReg s rt (s.reg rs + signExtend16 imm)

/-- R125: 1 if `signed(x[rs]) < signed(sext_32(imm16))`, else 0. -/
def execSlti (rt rs : RegIndex) (imm : Imm16) (s : State) : Result State :=
  writeReg s rt (conditionWord (signedLess (s.reg rs) (signExtend16 imm)))

/-- R126. -/
def execAndi (rt rs : RegIndex) (imm : Imm16) (s : State) : Result State :=
  writeReg s rt (s.reg rs &&& zeroExtend16 imm)

/-- R127. -/
def execOri (rt rs : RegIndex) (imm : Imm16) (s : State) : Result State :=
  writeReg s rt (s.reg rs ||| zeroExtend16 imm)

/-- R128. -/
def execXori (rt rs : RegIndex) (imm : Imm16) (s : State) : Result State :=
  writeReg s rt (s.reg rs ^^^ zeroExtend16 imm)

/-- R129: `x[rt] <- imm16 ++ 0^16`. -/
def execLui (rt : RegIndex) (imm : Imm16) (s : State) : Result State :=
  writeReg s rt (upperImmediate imm)

end Sys2Proof.Machine
end

