-- ==== Sys2Proof/Machine/AluR.lean ====
section
/-! DEFINITION. Register-register arithmetic and logic (spec/45_alu_r.md R103 to R112). Sums and
differences are modulo 2^32 and never trap (R103). -/

namespace Sys2Proof.Machine

/-- R104: `x[rd] <- (x[rs] + x[rt]) mod 2^32`, no trap on overflow. -/
def execAdd (rd rs rt : RegIndex) (s : State) : Result State :=
  writeReg s rd (s.reg rs + s.reg rt)

/-- R105: as ADD. -/
def execAddu (rd rs rt : RegIndex) (s : State) : Result State :=
  writeReg s rd (s.reg rs + s.reg rt)

/-- R106: `x[rd] <- (x[rs] - x[rt]) mod 2^32`, no trap on overflow. -/
def execSub (rd rs rt : RegIndex) (s : State) : Result State :=
  writeReg s rd (s.reg rs - s.reg rt)

/-- R107: as SUB. -/
def execSubu (rd rs rt : RegIndex) (s : State) : Result State :=
  writeReg s rd (s.reg rs - s.reg rt)

/-- R108. -/
def execAnd (rd rs rt : RegIndex) (s : State) : Result State :=
  writeReg s rd (s.reg rs &&& s.reg rt)

/-- R109. -/
def execOr (rd rs rt : RegIndex) (s : State) : Result State :=
  writeReg s rd (s.reg rs ||| s.reg rt)

/-- R110. -/
def execXor (rd rs rt : RegIndex) (s : State) : Result State :=
  writeReg s rd (s.reg rs ^^^ s.reg rt)

/-- R111. -/
def execNor (rd rs rt : RegIndex) (s : State) : Result State :=
  writeReg s rd (~~~(s.reg rs ||| s.reg rt))

/-- R112: 1 if `signed(x[rs]) < signed(x[rt])`, else 0. -/
def execSlt (rd rs rt : RegIndex) (s : State) : Result State :=
  writeReg s rd (conditionWord (signedLess (s.reg rs) (s.reg rt)))

end Sys2Proof.Machine
end

