-- ==== Sys2Proof/Machine/Branch.lean ====
section
/-! DEFINITION. Conditional branches (spec/46_branch.md R113 to R120). -/

namespace Sys2Proof.Machine

/-- R113: a taken branch goes to its target, counted from the branch itself; one that is not taken
takes the default advance. -/
def branchIf (s : State) (taken : Bool) (imm : Imm16) : Result State :=
  .next (if taken then s.commitTo (branchTarget s.pc imm) else s.commit)

/-- R115. -/
def execBeq (rs rt : RegIndex) (imm : Imm16) (s : State) : Result State :=
  branchIf s (s.reg rs == s.reg rt) imm

/-- R116. -/
def execBne (rs rt : RegIndex) (imm : Imm16) (s : State) : Result State :=
  branchIf s (s.reg rs != s.reg rt) imm

/-- R117. -/
def execBlez (rs : RegIndex) (imm : Imm16) (s : State) : Result State :=
  branchIf s (blezTaken s.config.branchMode (s.reg rs)) imm

/-- R118. -/
def execBgtz (rs : RegIndex) (imm : Imm16) (s : State) : Result State :=
  branchIf s (bgtzTaken s.config.branchMode (s.reg rs)) imm

/-- R119. -/
def execBltz (rs : RegIndex) (imm : Imm16) (s : State) : Result State :=
  branchIf s (bltzTaken (s.reg rs)) imm

/-- R120. -/
def execBgez (rs : RegIndex) (imm : Imm16) (s : State) : Result State :=
  branchIf s (bgezTaken (s.reg rs)) imm

end Sys2Proof.Machine
end

