-- ==== Sys2Proof/Machine/HiLo.lean ====
section
/-! DEFINITION. HI/LO moves, multiply and divide (spec/44_hilo.md R94 to R102). -/

namespace Sys2Proof.Machine

/-- R94: `x[rd] <- hi`. -/
def execMfhi (rd : RegIndex) (s : State) : Result State :=
  writeReg s rd s.hi

/-- R95: `hi <- x[rs]`. -/
def execMthi (rs : RegIndex) (s : State) : Result State :=
  .next (s.setHi (s.reg rs)).commit

/-- R96: `x[rd] <- lo`. -/
def execMflo (rd : RegIndex) (s : State) : Result State :=
  writeReg s rd s.lo

/-- R97: `lo <- x[rs]`. -/
def execMtlo (rs : RegIndex) (s : State) : Result State :=
  .next (s.setLo (s.reg rs)).commit

/-- `hi <- h`, `lo <- l`, then commit. -/
def writeHiLo (s : State) (h l : Word) : Result State :=
  .next ((s.setHi h).setLo l).commit

/-- A 64-bit product split into HI (bits 63:32) and LO (bits 31:0) (R98, R99). -/
def writeProduct (s : State) (p : BitVec 64) : Result State :=
  writeHiLo s (p.extractLsb' 32 32) (p.extractLsb' 0 32)

/-- R98: the signed product. -/
def execMult (rs rt : RegIndex) (s : State) : Result State :=
  writeProduct s ((s.reg rs).signExtend 64 * (s.reg rt).signExtend 64)

/-- R99: the unsigned product. -/
def execMultu (rs rt : RegIndex) (s : State) : Result State :=
  writeProduct s ((s.reg rs).setWidth 64 * (s.reg rt).setWidth 64)

/-- R101, by the laws of R100 (truncation toward zero, D8; log entry 11): division by zero leaves HI
and LO as they are, and -2^31 / -1 does what `DIV_OVF` says (D7; log entry 10). -/
def execDiv (rs rt : RegIndex) (s : State) : Result State :=
  let a := (s.reg rs).toInt
  let b := (s.reg rt).toInt
  if b = 0 then .next s.commit
  else if a = -2147483648 ∧ b = -1 then
    match s.config.divOvf with
    | .fault      => .fault .divOverflow
    | .pair lo hi => writeHiLo s hi lo
  else writeHiLo s (BitVec.ofInt 32 (a - a.tdiv b * b)) (BitVec.ofInt 32 (a.tdiv b))

/-- R102: the unsigned quotient and remainder; division by zero leaves HI and LO as they are. -/
def execDivu (rs rt : RegIndex) (s : State) : Result State :=
  let a := (s.reg rs).toNat
  let b := (s.reg rt).toNat
  if b = 0 then .next s.commit
  else writeHiLo s (BitVec.ofNat 32 (a % b)) (BitVec.ofNat 32 (a / b))

end Sys2Proof.Machine
end

