-- ==== Sys2Proof/Machine/Jump.lean ====
section
/-! DEFINITION. Absolute jumps (spec/47_jump.md R121, R122). -/

namespace Sys2Proof.Machine

/-- The register JAL links into (R122, D4; log entry 6). -/
def linkRegister : RegIndex := 31

/-- R121. -/
def execJ (target : Target) (s : State) : Result State :=
  .next (s.commitTo (jumpTarget s.pc target))

/-- R122: as J, and `x[31] <- pc_cur + 4`. -/
def execJal (target : Target) (s : State) : Result State :=
  .next ((s.setReg linkRegister (s.pc + 4)).commitTo (jumpTarget s.pc target))

end Sys2Proof.Machine
end

