-- ==== Sys2Proof/Machine/JumpRegister.lean ====
section
/-! DEFINITION. Register jumps (spec/42_jump_register.md R91, R92). The target is not checked; a
misaligned one faults at the next fetch (D31). -/

namespace Sys2Proof.Machine

/-- R91: `pc <- x[rs]`. -/
def execJr (rs : RegIndex) (s : State) : Result State :=
  .next (s.commitTo (s.reg rs))

/-- R92: `pc <- x[rs]`, read from the current state, and `x[rd] <- pc_cur + 4`. -/
def execJalr (rd rs : RegIndex) (s : State) : Result State :=
  .next ((s.setReg rd (s.pc + 4)).commitTo (s.reg rs))

end Sys2Proof.Machine
end

