-- ==== Sys2Proof/Machine/LoadStore.lean ====
section
/-! DEFINITION. Loads and stores (spec/49_load_store.md R130 to R137). A fault writes nothing (R28,
R135). -/

namespace Sys2Proof.Machine

/-- A load's end: the loaded value goes to `x[rt]`, or the access's model fault stops the step. -/
def finishLoad (s : State) (rt : RegIndex) (v : Except Fault Word) : Result State :=
  match v with
  | .error f => .fault f
  | .ok w    => writeReg s rt w

/-- A store's end: commit the stored state, or stop with the access's model fault. -/
def finishStore (t : Except Fault State) : Result State :=
  match t with
  | .error f => .fault f
  | .ok s    => .next s.commit

/-- The word a sub-word access fetches, and the lane in it (R131). -/
def readSubword (s : State) (ea : Word) (size : SubwordSize) : Except Fault (Word × Nat × Word) :=
  match subwordLocate s.config.subwordUnaligned ea size with
  | .error f    => .error f
  | .ok (wa, k) =>
    match memRead s wa with
    | .error f => .error f
    | .ok w    => .ok (wa, k, w)

/-- A sub-word load: fetch the word, take the lane out of it (R131). -/
def loadSubword (s : State) (ea : Word) (size : SubwordSize) (extract : Word → Nat → Word) :
    Except Fault Word :=
  match readSubword s ea size with
  | .error f       => .error f
  | .ok (_, k, w) => .ok (extract w k)

/-- A sub-word store: fetch the word, splice the lane, write the word back (R131). -/
def storeSubword (s : State) (ea : Word) (size : SubwordSize) (splice : Word → Nat → Word) :
    Except Fault State :=
  match readSubword s ea size with
  | .error f        => .error f
  | .ok (wa, k, w) => memWrite s wa (splice w k)

/-- R132: `x[rt] <- sext_32(w[8k+7 : 8k])`. -/
def execLb (rt rs : RegIndex) (imm : Imm16) (s : State) : Result State :=
  finishLoad s rt
    (loadSubword s (effectiveAddress s rs imm) .byte fun w k => (byteLane w k).signExtend 32)

/-- R133: `x[rt] <- sext_32(w[8k+15 : 8k])`. -/
def execLh (rt rs : RegIndex) (imm : Imm16) (s : State) : Result State :=
  finishLoad s rt
    (loadSubword s (effectiveAddress s rs imm) .half fun w k => (halfLane w k).signExtend 32)

/-- R134: `x[rt] <- MemRead(EA, 4)`. -/
def execLw (rt rs : RegIndex) (imm : Imm16) (s : State) : Result State :=
  finishLoad s rt (memRead s (effectiveAddress s rs imm))

/-- R135: byte lane `k` of the word is replaced by `x[rt][7:0]`. -/
def execSb (rt rs : RegIndex) (imm : Imm16) (s : State) : Result State :=
  finishStore
    (storeSubword s (effectiveAddress s rs imm) .byte fun w k =>
      spliceByte w k ((s.reg rt).extractLsb' 0 8))

/-- R136: the halfword from byte lane `k` on is replaced by `x[rt][15:0]`. -/
def execSh (rt rs : RegIndex) (imm : Imm16) (s : State) : Result State :=
  finishStore
    (storeSubword s (effectiveAddress s rs imm) .half fun w k =>
      spliceHalf w k ((s.reg rt).extractLsb' 0 16))

/-- R137: `MemWrite(EA, 4, x[rt])`, after the read of the read-modify-write, whose value is not
used. -/
def execSw (rt rs : RegIndex) (imm : Imm16) (s : State) : Result State :=
  match memRead s (effectiveAddress s rs imm) with
  | .error f => .fault f
  | .ok _    => finishStore (memWrite s (effectiveAddress s rs imm) (s.reg rt))

end Sys2Proof.Machine
end

