-- ==== Sys2Proof/Machine/Shift.lean ====
section
/-! DEFINITION. Shifts by a constant (spec/41_shift.md R87 to R90). -/

namespace Sys2Proof.Machine

/-- R87: `x[rd] <- x[rt] << shamt`. -/
def execSll (rd rt : RegIndex) (shamt : Shamt) (s : State) : Result State :=
  writeReg s rd (s.reg rt <<< shamt.toNat)

/-- R88: `x[rd] <- x[rt] >>u shamt`. -/
def execSrl (rd rt : RegIndex) (shamt : Shamt) (s : State) : Result State :=
  writeReg s rd (s.reg rt >>> shamt.toNat)

/-- SRA's result. Arithmetic mode is R89. In faithful mode a negative operand shifted by at least 1
gives the open value `SRA_FAITHFUL`; for every other operand the two modes agree (R90; log entry 13). -/
def sraResult (mode : SraMode) (v : Word) (shamt : Shamt) : Word :=
  match mode with
  | .arithmetic => v.sshiftRight shamt.toNat
  | .faithful   =>
    if v.getLsbD 31 && shamt != 0 then Config.sraFaithful v shamt else v.sshiftRight shamt.toNat

/-- R89, R90: `x[rd] <- x[rt] >>s shamt`. -/
def execSra (rd rt : RegIndex) (shamt : Shamt) (s : State) : Result State :=
  writeReg s rd (sraResult s.config.sraMode (s.reg rt) shamt)

end Sys2Proof.Machine
end

