-- ==== Sys2Proof/Machine/Syscall.lean ====
section
/-! DEFINITION. SYSCALL (spec/43_syscall.md R93). -/

namespace Sys2Proof.Machine

/-- The register SYSCALL reads (spec/00_scope.md R6, R93). -/
def haltRegister : RegIndex := 2

/-- The halt code (spec/00_scope.md R6, R93). -/
def haltCode : Word := 0x0000000A

/-- R93: clears the RunFlag if `x[2]` is exactly the halt code, otherwise has no effect. Its step
commits either way (R82). -/
def execSyscall (s : State) : Result State :=
  .next { s with run := if s.reg haltRegister = haltCode then false else s.run }.commit

end Sys2Proof.Machine
end

