-- ==== Sys2Proof/Machine/Step.lean ====
section
/-! DEFINITION. One step of the core (spec/40_cycle.md R74). -/

namespace Sys2Proof.Machine

/-- R74: on a running core with no fault, fetch, decode, and run the instruction, whose meaning
answers the committed state; a word that selects no instruction is a no-op (R79). A halted core does
nothing (R83), and a faulted core stays stopped (R28). -/
def step (s : State) : Host.Outcome State Fault Refusal :=
  match s.fault with
  | some k => stepFaulted k s
  | none   =>
    if s.run then
      match fetch s with
      | .error k => .fault k
      | .ok w    =>
        match decode w with
        | .ok i    => exec i s
        | .error _ => execUnimplemented s
    else stepHalted s

/-- `s` with the instruction of the bits `w` placed where the next step fetches, and able to run it:
Running, no fault, and the PC at an aligned address of a region (the PC itself where it already is
one). It stands for the host's load of a program (log entry 21). -/
def State.withFetchWord (s : State) (nbits w : Nat) : State :=
  { s with
    pc    := fetchAddress s
    run   := true
    fault := none
    mem   := s.mem.writeWord (fetchAddress s).toNat (BitVec.ofNat 32 (w % 2 ^ nbits)) }

end Sys2Proof.Machine
end

