-- ==== Sys2Proof/Machine/Disasm.lean ====
section
/-! DEFINITION. The disassembler (spec/30_encoding.md R69 to R72): a pure function of the word and of
the address it stands at. The text is the spec's own choice (D20, D29; log entry 20). -/

namespace Sys2Proof.Machine

/-- A lower-case hexadecimal digit. -/
def hexDigit (n : Nat) : Char :=
  if n < 10 then Char.ofNat (48 + n) else Char.ofNat (87 + n)

/-- The last `k` hexadecimal digits of `n`, most significant first. -/
def hexDigits : Nat → Nat → List Char
  | 0, _     => []
  | k + 1, n => hexDigit (n / 16 ^ k % 16) :: hexDigits k n

/-- `0x` and 8 hexadecimal digits (R71, R72). -/
def hexWord (w : Word) : String :=
  "0x" ++ String.ofList (hexDigits 8 w.toNat)

/-- `uimm`: `0x` and 4 hexadecimal digits (R71). -/
def unsignedText (imm : Imm16) : String :=
  "0x" ++ String.ofList (hexDigits 4 imm.toNat)

/-- `imm`: the signed immediate in decimal (R71). -/
def signedText (imm : Imm16) : String :=
  toString imm.toInt

/-- `$n` (R70). -/
def regText (r : RegIndex) : String :=
  "$" ++ toString r.val

/-- `op $a, $b, $c`. -/
def textRRR (op : String) (a b c : RegIndex) : String :=
  op ++ " " ++ regText a ++ ", " ++ regText b ++ ", " ++ regText c

/-- `op $a, $b`. -/
def textRR (op : String) (a b : RegIndex) : String :=
  op ++ " " ++ regText a ++ ", " ++ regText b

/-- `op $a`. -/
def textR (op : String) (a : RegIndex) : String :=
  op ++ " " ++ regText a

/-- `op $rd, $rt, shamt`. -/
def textShift (op : String) (rd rt : RegIndex) (shamt : Shamt) : String :=
  textRR op rd rt ++ ", " ++ toString shamt.toNat

/-- `op $rt, $rs, imm`. -/
def textSigned (op : String) (rt rs : RegIndex) (imm : Imm16) : String :=
  textRR op rt rs ++ ", " ++ signedText imm

/-- `op $rt, $rs, uimm`. -/
def textUnsigned (op : String) (rt rs : RegIndex) (imm : Imm16) : String :=
  textRR op rt rs ++ ", " ++ unsignedText imm

/-- `op $rt, imm($rs)`. -/
def textMem (op : String) (rt rs : RegIndex) (imm : Imm16) : String :=
  textR op rt ++ ", " ++ signedText imm ++ "(" ++ regText rs ++ ")"

/-- `op $rs, addr`, the address of a branch at `a`. -/
def textBranch1 (op : String) (a : Word) (rs : RegIndex) (imm : Imm16) : String :=
  textR op rs ++ ", " ++ hexWord (branchTarget a imm)

/-- `op $rs, $rt, addr`, the address of a branch at `a`. -/
def textBranch2 (op : String) (a : Word) (rs rt : RegIndex) (imm : Imm16) : String :=
  textRR op rs rt ++ ", " ++ hexWord (branchTarget a imm)

/-- `op addr`, the address of a jump at `a`. -/
def textJump (op : String) (a : Word) (target : Target) : String :=
  op ++ " " ++ hexWord (jumpTarget a target)

/-- The text of an instruction that stands at the address `a` (R71). -/
def instrText (a : Word) : Instr → String
  | .sll rd rt sh    => textShift "sll" rd rt sh
  | .srl rd rt sh    => textShift "srl" rd rt sh
  | .sra rd rt sh    => textShift "sra" rd rt sh
  | .jr rs           => textR "jr" rs
  | .jalr rd rs      => textRR "jalr" rd rs
  | .syscall         => "syscall"
  | .mfhi rd         => textR "mfhi" rd
  | .mthi rs         => textR "mthi" rs
  | .mflo rd         => textR "mflo" rd
  | .mtlo rs         => textR "mtlo" rs
  | .mult rs rt      => textRR "mult" rs rt
  | .multu rs rt     => textRR "multu" rs rt
  | .div rs rt       => textRR "div" rs rt
  | .divu rs rt      => textRR "divu" rs rt
  | .add rd rs rt    => textRRR "add" rd rs rt
  | .addu rd rs rt   => textRRR "addu" rd rs rt
  | .sub rd rs rt    => textRRR "sub" rd rs rt
  | .subu rd rs rt   => textRRR "subu" rd rs rt
  | .and rd rs rt    => textRRR "and" rd rs rt
  | .or rd rs rt     => textRRR "or" rd rs rt
  | .xor rd rs rt    => textRRR "xor" rd rs rt
  | .nor rd rs rt    => textRRR "nor" rd rs rt
  | .slt rd rs rt    => textRRR "slt" rd rs rt
  | .bltz rs imm     => textBranch1 "bltz" a rs imm
  | .bgez rs imm     => textBranch1 "bgez" a rs imm
  | .beq rs rt imm   => textBranch2 "beq" a rs rt imm
  | .bne rs rt imm   => textBranch2 "bne" a rs rt imm
  | .blez rs imm     => textBranch1 "blez" a rs imm
  | .bgtz rs imm     => textBranch1 "bgtz" a rs imm
  | .j target        => textJump "j" a target
  | .jal target      => textJump "jal" a target
  | .addi rt rs imm  => textSigned "addi" rt rs imm
  | .addiu rt rs imm => textSigned "addiu" rt rs imm
  | .slti rt rs imm  => textSigned "slti" rt rs imm
  | .andi rt rs imm  => textUnsigned "andi" rt rs imm
  | .ori rt rs imm   => textUnsigned "ori" rt rs imm
  | .xori rt rs imm  => textUnsigned "xori" rt rs imm
  | .lui rt imm      => textR "lui" rt ++ ", " ++ unsignedText imm
  | .lb rt rs imm    => textMem "lb" rt rs imm
  | .lh rt rs imm    => textMem "lh" rt rs imm
  | .lw rt rs imm    => textMem "lw" rt rs imm
  | .sb rt rs imm    => textMem "sb" rt rs imm
  | .sh rt rs imm    => textMem "sh" rt rs imm
  | .sw rt rs imm    => textMem "sw" rt rs imm

/-- The text of the word `w` at the address `a`: the instruction's text, or `.word` for a word that
is none of the 44 (R69, R72). -/
def disassembleWord (a w : Word) : String :=
  match decode w with
  | .ok i    => instrText a i
  | .error _ => ".word " ++ hexWord w

end Sys2Proof.Machine
end

