-- ==== Sys2Proof/WellFormed.lean ====
section
/-! DEFINITION. What is checked of raw data before the machine runs on it: the constraints on the
configuration (spec/20_memory.md R33, spec/92_eei_decisions.md D10) and on a register number that the
host writes (spec/60_exceptions.md R157). An `Instr` needs no check of its own: the type of each
operand is exactly the range of its field (spec/30_encoding.md R54, R63), so every term is an
instruction the machine can run. -/

namespace Sys2Proof

/-- R33 (b) and (c): the bounds are in order, and the region starts and ends on word boundaries. -/
def Region.wf (g : Region) : Bool :=
  decide (g.first.toNat ≤ g.last.toNat) && decide (g.first.toNat % 4 = 0) &&
    decide ((g.last.toNat + 1) % 4 = 0)

/-- The two regions share no address. -/
def Region.disjoint (g h : Region) : Bool :=
  decide (g.last.toNat < h.first.toNat) || decide (h.last.toNat < g.first.toNat)

/-- R33 (a): no two regions of the list overlap. -/
def regionsDisjoint : List Region → Bool
  | []      => true
  | g :: gs => gs.all g.disjoint && regionsDisjoint gs

/-- The configuration meets R33 (a) to (d), and `TEXT_BASE` is a multiple of 4 (D10). -/
def Config.wf (c : Config) : Bool :=
  c.regions.all Region.wf && regionsDisjoint c.regions &&
    c.regions.any (Region.contains · c.textBase.toNat) && decide (c.textBase.toNat % 4 = 0)

/-- A register number given as a plain number, checked against the 32 registers (R16, R157). -/
def checkRegIndex (n : Nat) : Option RegIndex :=
  if h : n < 32 then some ⟨n, h⟩ else none

end Sys2Proof
end

