-- ==== Sys2Proof/Machine/HostPort.lean ====
section
/-! DEFINITION. The host and debug port (spec/60_exceptions.md R151 to R160, spec/40_cycle.md R84, R85,
spec/70_reset_and_hazards.md R162). Each operation is one function of the state between two steps
(log entry 23). -/

namespace Sys2Proof.Machine

/-- A host error: the operation is refused and changes nothing. It is not a fault of the core. -/
inductive HostError where
  /-- `setRegister` with an index outside 0 to 31 (R157). -/
  | invalidRegisterIndex (index : Nat)
  /-- A host access to an address that is no multiple of 4 (R156; log entry 19). -/
  | misalignedAddress (addr : Word)
  deriving DecidableEq, Repr

/-! ## Reset and load -/

/-- One word of the image stored, or dropped where memory does not take it (R152, R38). -/
def storeImageWord (s : State) (a w : Word) : State :=
  match memWrite s a w with
  | .ok t    => t
  | .error _ => s

/-- The image written word by word from `a` on (R162). -/
def loadImage : State → Word → List Word → State
  | s, _, []      => s
  | s, a, w :: ws => loadImage (storeImageWord s a w) (a + 4) ws

/-- `reset()` (R162): every region zero, PC at `TEXT_BASE`, registers, HI and LO at their initial
values, the kept image written again, count 0, Running, no fault. -/
def hostReset (s : State) : State :=
  loadImage
    { s with
      mem    := []
      pc     := s.config.textBase
      gpr    := s.config.initGpr
      hi     := s.config.initHi
      lo     := s.config.initLo
      icount := 0
      run    := true
      fault  := none }
    s.config.textBase s.image

/-- `loadProgram(words)` (R152): keep the image, then reset (D25; log entry 18). -/
def loadProgram (s : State) (words : List Word) : State :=
  hostReset { s with image := words }

/-! ## Running -/

/-- `step()` (R153): one step of the core. A model fault of the step is recorded in `fault`, and
nothing else of the state changes (R28; log entry 15). -/
def hostStep (s : State) : State :=
  match step s with
  | .next t    => t
  | .fault k   => { s with fault := some k }
  | .refused _ => s

/-- The core can step: Running and no model fault (R74). -/
def canStep (s : State) : Bool :=
  s.run && s.fault.isNone

/-- `runFor(n)` (R84): up to `n` steps, stopping early on Halted or on a model fault. -/
def runFor : Nat → State → State
  | 0, s     => s
  | n + 1, s => if canStep s then runFor n (hostStep s) else s

/-- The diagnostics that `runFor(n)` puts out, in order (R29). -/
def runDiagnostics : Nat → State → List Diag
  | 0, _     => []
  | n + 1, s =>
    if canStep s then (diagnostic s).toList ++ runDiagnostics n (hostStep s) else []

/-- How a run ends (R86). -/
inductive RunEnd where
  /-- The end of a run: the first state that is Halted. -/
  | halted (s : State)
  /-- Stuck with a model fault: not a correct end. -/
  | faulted (s : State)
  /-- Still Running when the fuel ran out. -/
  | outOfFuel (s : State)
  deriving DecidableEq, Repr

/-- `runToCompletion()` (R85), under fuel (log entry 22). -/
def runToCompletion : Nat → State → RunEnd
  | fuel, s =>
    let t := runFor fuel s
    if t.fault.isSome then .faulted t
    else if t.run then .outOfFuel t
    else .halted t

/-! ## Memory and registers -/

/-- The host's `readWord(addr)` (R156): `MemRead`, refused at a misaligned address. -/
def hostReadWord (s : State) (a : Word) : Except HostError Word :=
  match memRead s a with
  | .ok w    => .ok w
  | .error _ => .error (.misalignedAddress a)

/-- The host's `writeWord(addr, value)` (R156): `MemWrite`, refused at a misaligned address. -/
def hostWriteWord (s : State) (a v : Word) : Except HostError State :=
  match memWrite s a v with
  | .ok t    => .ok t
  | .error _ => .error (.misalignedAddress a)

/-- `setRegister(index, value)` (R157). -/
def setRegister (s : State) (index : Nat) (v : Word) : Except HostError State :=
  match checkRegIndex index with
  | some r => .ok (s.setReg r v)
  | none   => .error (.invalidRegisterIndex index)

/-- `setHI(value)` (R158). -/
def setHI (s : State) (v : Word) : State :=
  s.setHi v

/-- `setLO(value)` (R158). -/
def setLO (s : State) (v : Word) : State :=
  s.setLo v

/-! ## Read-outs -/

/-- `disassemble(addr)` (R159): the text of the word at an aligned address. -/
def disassemble (s : State) (a : Word) : Except HostError String :=
  (hostReadWord s a).map (disassembleWord a)

/-- The addresses of a disassembly listing: `length(image)` words from `TEXT_BASE` (R159, D32). -/
def listingAddresses (s : State) : List Word :=
  (List.range s.image.length).map fun i => s.config.textBase + BitVec.ofNat 32 (4 * i)

/-- A disassembly listing (R159). -/
def listing (s : State) : List (Except HostError String) :=
  (listingAddresses s).map (disassemble s)

/-- `isHalted()` (R160). -/
def isHalted (s : State) : Bool :=
  !s.run

/-- `instructionCount()` (R160). -/
def instructionCount (s : State) : Word :=
  s.icount

/-- `currentPC()` (R160). -/
def currentPC (s : State) : Word :=
  s.pc

end Sys2Proof.Machine
end

