-- ==== Sys2Proof/Safety.lean ====
section
/-! DEFINITION. The terms the claims use: the invariant of the machine, safe runs, and what it means
that an instruction did exactly one thing. -/

namespace Sys2Proof.Machine

/-! ## The invariant -/

/-- Every listed byte lies in a region: memory holds the regions' bytes and nothing else (R32). -/
def memInRegions (c : Config) (m : Memory) : Bool :=
  m.all fun cell => mapped c cell.1

/-- The invariant: a configuration that meets R33 and D10, memory in canonical form, and no byte
listed outside the regions. -/
structure State.Inv (s : State) : Prop where
  config    : s.config.wf = true
  canonical : s.mem.wf = true
  inRegions : memInRegions s.config s.mem = true

/-! ## Safe runs -/

/-- `n` steps from `s`, none of which faults or is refused, end in `t`. -/
def StepsTo : Nat → State → State → Prop
  | 0, s, t     => s = t
  | n + 1, s, t => ∃ u, step s = .next u ∧ StepsTo n u t

/-- A run of `n` steps from `s` is safe: none of them faults or is refused. -/
def SafeFor (n : Nat) (s : State) : Prop :=
  ∃ t, StepsTo n s t

/-! ## Which instruction may write what -/

/-- The general register an instruction writes, if it writes one (R18). -/
def destination : Instr → Option RegIndex
  | .sll rd _ _ | .srl rd _ _ | .sra rd _ _ => some rd
  | .jalr rd _ | .mfhi rd | .mflo rd => some rd
  | .add rd _ _ | .addu rd _ _ | .sub rd _ _ | .subu rd _ _ => some rd
  | .and rd _ _ | .or rd _ _ | .xor rd _ _ | .nor rd _ _ | .slt rd _ _ => some rd
  | .addi rt _ _ | .addiu rt _ _ | .slti rt _ _ => some rt
  | .andi rt _ _ | .ori rt _ _ | .xori rt _ _ | .lui rt _ => some rt
  | .lb rt _ _ | .lh rt _ _ | .lw rt _ _ => some rt
  | .jal _ => some 31
  | .jr _ | .syscall | .mthi _ | .mtlo _ | .mult _ _ | .multu _ _ | .div _ _ | .divu _ _ => none
  | .bltz _ _ | .bgez _ _ | .beq _ _ _ | .bne _ _ _ | .blez _ _ | .bgtz _ _ | .j _ => none
  | .sb _ _ _ | .sh _ _ _ | .sw _ _ _ => none

/-- The instruction may write HI (R21). -/
def mayWriteHi : Instr → Bool
  | .mthi _ | .mult _ _ | .multu _ _ | .div _ _ | .divu _ _ => true
  | .sll _ _ _ | .srl _ _ _ | .sra _ _ _ | .jr _ | .jalr _ _ | .syscall => false
  | .mfhi _ | .mflo _ | .mtlo _ => false
  | .add _ _ _ | .addu _ _ _ | .sub _ _ _ | .subu _ _ _ => false
  | .and _ _ _ | .or _ _ _ | .xor _ _ _ | .nor _ _ _ | .slt _ _ _ => false
  | .bltz _ _ | .bgez _ _ | .beq _ _ _ | .bne _ _ _ | .blez _ _ | .bgtz _ _ | .j _ | .jal _ => false
  | .addi _ _ _ | .addiu _ _ _ | .slti _ _ _ | .andi _ _ _ | .ori _ _ _ | .xori _ _ _ | .lui _ _ => false
  | .lb _ _ _ | .lh _ _ _ | .lw _ _ _ | .sb _ _ _ | .sh _ _ _ | .sw _ _ _ => false

/-- The instruction may write LO (R21). -/
def mayWriteLo : Instr → Bool
  | .mtlo _ | .mult _ _ | .multu _ _ | .div _ _ | .divu _ _ => true
  | .sll _ _ _ | .srl _ _ _ | .sra _ _ _ | .jr _ | .jalr _ _ | .syscall => false
  | .mfhi _ | .mflo _ | .mthi _ => false
  | .add _ _ _ | .addu _ _ _ | .sub _ _ _ | .subu _ _ _ => false
  | .and _ _ _ | .or _ _ _ | .xor _ _ _ | .nor _ _ _ | .slt _ _ _ => false
  | .bltz _ _ | .bgez _ _ | .beq _ _ _ | .bne _ _ _ | .blez _ _ | .bgtz _ _ | .j _ | .jal _ => false
  | .addi _ _ _ | .addiu _ _ _ | .slti _ _ _ | .andi _ _ _ | .ori _ _ _ | .xori _ _ _ | .lui _ _ => false
  | .lb _ _ _ | .lh _ _ _ | .lw _ _ _ | .sb _ _ _ | .sh _ _ _ | .sw _ _ _ => false

/-- The instruction may write the PC itself instead of taking the default advance (R78). -/
def mayWritePc : Instr → Bool
  | .jr _ | .jalr _ _ | .j _ | .jal _ => true
  | .bltz _ _ | .bgez _ _ | .beq _ _ _ | .bne _ _ _ | .blez _ _ | .bgtz _ _ => true
  | .sll _ _ _ | .srl _ _ _ | .sra _ _ _ | .syscall => false
  | .mfhi _ | .mflo _ | .mthi _ | .mtlo _ | .mult _ _ | .multu _ _ | .div _ _ | .divu _ _ => false
  | .add _ _ _ | .addu _ _ _ | .sub _ _ _ | .subu _ _ _ => false
  | .and _ _ _ | .or _ _ _ | .xor _ _ _ | .nor _ _ _ | .slt _ _ _ => false
  | .addi _ _ _ | .addiu _ _ _ | .slti _ _ _ | .andi _ _ _ | .ori _ _ _ | .xori _ _ _ | .lui _ _ => false
  | .lb _ _ _ | .lh _ _ _ | .lw _ _ _ | .sb _ _ _ | .sh _ _ _ | .sw _ _ _ => false

/-- The instruction jumps to a register value, which nothing has checked (R75, R91, R92). -/
def jumpsToRegister : Instr → Bool
  | .jr _ | .jalr _ _ => true
  | .j _ | .jal _ => false
  | .bltz _ _ | .bgez _ _ | .beq _ _ _ | .bne _ _ _ | .blez _ _ | .bgtz _ _ => false
  | .sll _ _ _ | .srl _ _ _ | .sra _ _ _ | .syscall => false
  | .mfhi _ | .mflo _ | .mthi _ | .mtlo _ | .mult _ _ | .multu _ _ | .div _ _ | .divu _ _ => false
  | .add _ _ _ | .addu _ _ _ | .sub _ _ _ | .subu _ _ _ => false
  | .and _ _ _ | .or _ _ _ | .xor _ _ _ | .nor _ _ _ | .slt _ _ _ => false
  | .addi _ _ _ | .addiu _ _ _ | .slti _ _ _ | .andi _ _ _ | .ori _ _ _ | .xori _ _ _ | .lui _ _ => false
  | .lb _ _ _ | .lh _ _ _ | .lw _ _ _ | .sb _ _ _ | .sh _ _ _ | .sw _ _ _ => false

/-- The address and the number of bytes an instruction stores, if it is a store (R135 to R137). -/
def storeRange (s : State) : Instr → Option (Word × Nat)
  | .sb _ rs imm => some (effectiveAddress s rs imm, 1)
  | .sh _ rs imm => some (effectiveAddress s rs imm, 2)
  | .sw _ rs imm => some (effectiveAddress s rs imm, 4)
  | .sll _ _ _ | .srl _ _ _ | .sra _ _ _ | .jr _ | .jalr _ _ | .syscall => none
  | .mfhi _ | .mflo _ | .mthi _ | .mtlo _ | .mult _ _ | .multu _ _ | .div _ _ | .divu _ _ => none
  | .add _ _ _ | .addu _ _ _ | .sub _ _ _ | .subu _ _ _ => none
  | .and _ _ _ | .or _ _ _ | .xor _ _ _ | .nor _ _ _ | .slt _ _ _ => none
  | .bltz _ _ | .bgez _ _ | .beq _ _ _ | .bne _ _ _ | .blez _ _ | .bgtz _ _ | .j _ | .jal _ => none
  | .addi _ _ _ | .addiu _ _ _ | .slti _ _ _ | .andi _ _ _ | .ori _ _ _ | .xori _ _ _ | .lui _ _ => none
  | .lb _ _ _ | .lh _ _ _ | .lw _ _ _ => none

/-- Where and how an instruction stops with a model fault (R140): the conditions on the state and
the operands alone, for the instructions that can. -/
def faultOf (s : State) : Instr → Option Fault
  | .lw _ rs imm | .sw _ rs imm =>
    if aligned (effectiveAddress s rs imm) then none else some .misalignedAccess
  | .lb _ rs imm | .sb _ rs imm =>
    if aligned (effectiveAddress s rs imm) then none
    else if s.config.subwordUnaligned = .bytewise then none
    else some .misalignedAccess
  | .lh _ rs imm | .sh _ rs imm =>
    if aligned (effectiveAddress s rs imm) then none
    else if s.config.subwordUnaligned = .bytewise ∧ (effectiveAddress s rs imm).toNat % 2 = 0 then none
    else some .misalignedAccess
  | .div rs rt =>
    if s.reg rs = 0x80000000 ∧ s.reg rt = 0xFFFFFFFF ∧ s.config.divOvf = .fault then some .divOverflow
    else none
  | .sll _ _ _ | .srl _ _ _ | .sra _ _ _ | .jr _ | .jalr _ _ | .syscall => none
  | .mfhi _ | .mflo _ | .mthi _ | .mtlo _ | .mult _ _ | .multu _ _ | .divu _ _ => none
  | .add _ _ _ | .addu _ _ _ | .sub _ _ _ | .subu _ _ _ => none
  | .and _ _ _ | .or _ _ _ | .xor _ _ _ | .nor _ _ _ | .slt _ _ _ => none
  | .bltz _ _ | .bgez _ _ | .beq _ _ _ | .bne _ _ _ | .blez _ _ | .bgtz _ _ | .j _ | .jal _ => none
  | .addi _ _ _ | .addiu _ _ _ | .slti _ _ _ | .andi _ _ _ | .ori _ _ _ | .xori _ _ _ | .lui _ _ => none

/-! ## Sequences of writes -/

/-- The state after the word writes of the list, in order: each `(a, v)` is `MemWrite(a, 4, v)`. -/
def writeAll (s : State) (ws : List (Word × Word)) : State :=
  ws.foldl (fun u w => storeImageWord u w.1 w.2) s

/-- The value of the latest write of the list to the address, if there is one. -/
def latestWrite (ws : List (Word × Word)) (a : Word) : Option Word :=
  (ws.reverse.find? fun w => w.1 == a).map (·.2)

/-- The address of word `k` of a program image (R152). -/
def imageAddress (c : Config) (k : Nat) : Word :=
  c.textBase + BitVec.ofNat 32 (4 * k)

/-! ## Register renaming

Register 0 is an ordinary register (R17). That is said by exchanging it with another register, in the
state and in the instruction. -/

/-- The exchange of register 0 with register `k`. -/
def swapZero (k r : RegIndex) : RegIndex :=
  if r = 0 then k else if r = k then 0 else r

/-- The state with the values of register 0 and register `k` exchanged. -/
def State.swapZero (k : RegIndex) (s : State) : State :=
  (s.setReg 0 (s.reg k)).setReg k (s.reg 0)

/-- The instruction with every register operand renamed. -/
def renameRegs (f : RegIndex → RegIndex) : Instr → Instr
  | .sll rd rt sh    => .sll (f rd) (f rt) sh
  | .srl rd rt sh    => .srl (f rd) (f rt) sh
  | .sra rd rt sh    => .sra (f rd) (f rt) sh
  | .jr rs           => .jr (f rs)
  | .jalr rd rs      => .jalr (f rd) (f rs)
  | .syscall         => .syscall
  | .mfhi rd         => .mfhi (f rd)
  | .mthi rs         => .mthi (f rs)
  | .mflo rd         => .mflo (f rd)
  | .mtlo rs         => .mtlo (f rs)
  | .mult rs rt      => .mult (f rs) (f rt)
  | .multu rs rt     => .multu (f rs) (f rt)
  | .div rs rt       => .div (f rs) (f rt)
  | .divu rs rt      => .divu (f rs) (f rt)
  | .add rd rs rt    => .add (f rd) (f rs) (f rt)
  | .addu rd rs rt   => .addu (f rd) (f rs) (f rt)
  | .sub rd rs rt    => .sub (f rd) (f rs) (f rt)
  | .subu rd rs rt   => .subu (f rd) (f rs) (f rt)
  | .and rd rs rt    => .and (f rd) (f rs) (f rt)
  | .or rd rs rt     => .or (f rd) (f rs) (f rt)
  | .xor rd rs rt    => .xor (f rd) (f rs) (f rt)
  | .nor rd rs rt    => .nor (f rd) (f rs) (f rt)
  | .slt rd rs rt    => .slt (f rd) (f rs) (f rt)
  | .bltz rs imm     => .bltz (f rs) imm
  | .bgez rs imm     => .bgez (f rs) imm
  | .beq rs rt imm   => .beq (f rs) (f rt) imm
  | .bne rs rt imm   => .bne (f rs) (f rt) imm
  | .blez rs imm     => .blez (f rs) imm
  | .bgtz rs imm     => .bgtz (f rs) imm
  | .j target        => .j target
  | .jal target      => .jal target
  | .addi rt rs imm  => .addi (f rt) (f rs) imm
  | .addiu rt rs imm => .addiu (f rt) (f rs) imm
  | .slti rt rs imm  => .slti (f rt) (f rs) imm
  | .andi rt rs imm  => .andi (f rt) (f rs) imm
  | .ori rt rs imm   => .ori (f rt) (f rs) imm
  | .xori rt rs imm  => .xori (f rt) (f rs) imm
  | .lui rt imm      => .lui (f rt) imm
  | .lb rt rs imm    => .lb (f rt) (f rs) imm
  | .lh rt rs imm    => .lh (f rt) (f rs) imm
  | .lw rt rs imm    => .lw (f rt) (f rs) imm
  | .sb rt rs imm    => .sb (f rt) (f rs) imm
  | .sh rt rs imm    => .sh (f rt) (f rs) imm
  | .sw rt rs imm    => .sw (f rt) (f rs) imm

/-- The register an instruction uses without naming it: SYSCALL reads one (R93) and JAL writes one
(R122). Neither is register 0. -/
def fixedRegister : Instr → Option RegIndex
  | .syscall => some haltRegister
  | .jal _   => some linkRegister
  | .sll _ _ _ | .srl _ _ _ | .sra _ _ _ | .jr _ | .jalr _ _ => none
  | .mfhi _ | .mflo _ | .mthi _ | .mtlo _ | .mult _ _ | .multu _ _ | .div _ _ | .divu _ _ => none
  | .add _ _ _ | .addu _ _ _ | .sub _ _ _ | .subu _ _ _ => none
  | .and _ _ _ | .or _ _ _ | .xor _ _ _ | .nor _ _ _ | .slt _ _ _ => none
  | .bltz _ _ | .bgez _ _ | .beq _ _ _ | .bne _ _ _ | .blez _ _ | .bgtz _ _ | .j _ => none
  | .addi _ _ _ | .addiu _ _ _ | .slti _ _ _ | .andi _ _ _ | .ori _ _ _ | .xori _ _ _ | .lui _ _ => none
  | .lb _ _ _ | .lh _ _ _ | .lw _ _ _ | .sb _ _ _ | .sh _ _ _ | .sw _ _ _ => none

/-- The answer with `f` applied to its next state; a fault or a refusal is as it is. -/
def mapNext (f : State → State) : Result State → Result State
  | .next s    => .next (f s)
  | .fault k   => .fault k
  | .refused r => .refused r

/-! ## Effects

Each structure below says that `t` is `s` after one committed cycle, names everything the cycle
writes, and says that everything else is as it was. Bytes of memory are compared one by one, through
`State.byteAt`. -/

/-- What no instruction writes (R24, R28, R32). -/
structure Keeps (s t : State) : Prop where
  config : t.config = s.config
  image  : t.image = s.image
  fault  : t.fault = s.fault

/-- No byte of memory changed. -/
def MemoryKept (s t : State) : Prop :=
  ∀ a : Nat, t.byteAt a = s.byteAt a

/-- Every general register is as it was. -/
def RegsKept (s t : State) : Prop :=
  ∀ r : RegIndex, t.reg r = s.reg r

/-- Every general register but `d` is as it was. -/
def RegsKeptBut (d : RegIndex) (s t : State) : Prop :=
  ∀ r : RegIndex, r ≠ d → t.reg r = s.reg r

/-- The cycle went to `pc'` and was counted, modulo 2^32 (R23, R74). -/
structure Commits (pc' : Word) (s t : State) : Prop where
  pc     : t.pc = pc'
  icount : t.icount.toNat = (s.icount.toNat + 1) % 2 ^ 32

/-- The cycle wrote `x[d] <- v`, went to `pc'`, and did nothing else. -/
structure WritesReg (d : RegIndex) (v pc' : Word) (s t : State) : Prop where
  dest    : t.reg d = v
  others  : RegsKeptBut d s t
  hi      : t.hi = s.hi
  lo      : t.lo = s.lo
  run     : t.run = s.run
  memory  : MemoryKept s t
  keeps   : Keeps s t
  commits : Commits pc' s t

/-- The cycle wrote HI and LO (each possibly with the value it had), took the default advance, and
did nothing else. -/
structure WritesHiLo (h l : Word) (s t : State) : Prop where
  hi      : t.hi = h
  lo      : t.lo = l
  regs    : RegsKept s t
  run     : t.run = s.run
  memory  : MemoryKept s t
  keeps   : Keeps s t
  commits : Commits (s.pc + 4) s t

/-- The cycle went to `pc'`, left the RunFlag at `r`, and did nothing else. -/
structure OnlyGoesTo (pc' : Word) (r : Bool) (s t : State) : Prop where
  regs    : RegsKept s t
  hi      : t.hi = s.hi
  lo      : t.lo = s.lo
  run     : t.run = r
  memory  : MemoryKept s t
  keeps   : Keeps s t
  commits : Commits pc' s t

/-- The cycle stored the low `n` bytes of `v` at the byte addresses from `a` on, where a region holds
them, took the default advance, and did nothing else. -/
structure StoresBytes (a n : Nat) (v : Word) (s t : State) : Prop where
  stored  : ∀ k : Nat, k < n → mapped s.config (a + k) = true → t.byteAt (a + k) = byteOfWord v k
  memory  : ∀ b : Nat, (b < a ∨ a + n ≤ b) → t.byteAt b = s.byteAt b
  dropped : ∀ k : Nat, k < n → mapped s.config (a + k) = false → t.byteAt (a + k) = s.byteAt (a + k)
  regs    : RegsKept s t
  hi      : t.hi = s.hi
  lo      : t.lo = s.lo
  run     : t.run = s.run
  keeps   : Keeps s t
  commits : Commits (s.pc + 4) s t

/-- The word of the four bytes from the address on, as `State.byteAt` reads them. -/
def State.wordAt (s : State) (a : Nat) : Word :=
  wordOfBytes (s.byteAt a) (s.byteAt (a + 1)) (s.byteAt (a + 2)) (s.byteAt (a + 3))

/-- The halfword of the two bytes from the address on, as `State.byteAt` reads them. -/
def State.halfAt (s : State) (a : Nat) : Half :=
  s.byteAt (a + 1) ++ s.byteAt a

end Sys2Proof.Machine
end

