-- ==== Sys2Proof/Certificates/Slice0/Obligations.lean ====
section
/-! DEFINITION. The statements for the provers. Each is a claim about the machine, not about a program.
Every claim is over every state, so over every configuration (log entry 1). The terms used stand in
Safety.lean; a premise `s.Inv` is the invariant that StepKeepsInvariant and ResetMeetsInvariant state. -/

open Sys2Proof Sys2Proof.Machine

/-! ## Encoding (spec/30_encoding.md) -/

/-- Decoding the word of an instruction gives the instruction back, for all 44 instructions and every
value of every operand field. The opcode numbers are the spec's decision D1, D2 (log entry 5). -/
def Obligations.DecodeEncodeRoundTrip : Prop :=
  ∀ i : Instr, decode (encode i) = .ok i

/-- A word decodes to an instruction exactly when its selecting and operand bits are the
instruction's: no used bit is dropped, and no other bit is looked at (R67; D17, log entry 7). -/
def Obligations.DecodeReadsExactlyTheUsedBits : Prop :=
  ∀ (w : Word) (i : Instr),
    decode w = .ok i ↔ w &&& ((opcodeRow i).mask ||| (opcodeRow i).operands) = encode i

/-- The decoder and the opcode table agree: a decoded word matches its instruction's row, a word that
matches a row decodes to an instruction of that row, and a word is rejected exactly when it matches
no row (R64 to R66; D1, D2, log entry 5). -/
def Obligations.DecodeFollowsTheOpcodeTable : Prop :=
  (∀ (w : Word) (i : Instr), decode w = .ok i → (opcodeRow i).selects w) ∧
  (∀ (w : Word) (i : Instr), (opcodeRow i).selects w →
    ∃ j, decode w = .ok j ∧ opcodeRow j = opcodeRow i) ∧
  (∀ w : Word, (∃ e, decode w = .error e) ↔ ∀ i : Instr, ¬ (opcodeRow i).selects w)

/-- Words the spec writes out, one of each family, decode to the instructions it names. All but the
SYSCALL and the ADDI word rest on the numbers that the spec takes from MIPS-I (D1, D2, log entry 5). -/
def Obligations.WordsFromTheSpecDecode : Prop :=
  decode 0x00094100 = .ok (.sll 8 9 4) ∧
  decode 0x0100F809 = .ok (.jalr 31 8) ∧
  decode 0x0000000C = .ok .syscall ∧
  decode 0x0109001A = .ok (.div 8 9) ∧
  decode 0x01095020 = .ok (.add 10 8 9) ∧
  decode 0x1509FFFF = .ok (.bne 8 9 0xFFFF) ∧
  decode 0x05010002 = .ok (.bgez 8 2) ∧
  decode 0x0C100040 = .ok (.jal 0x0100040) ∧
  decode 0x20090005 = .ok (.addi 9 0 5) ∧
  decode 0x8D09FFFC = .ok (.lw 9 8 0xFFFC) ∧
  decode 0xA1090003 = .ok (.sb 9 8 3)

/-- The decoder over bytes reads one little-endian word and leaves the rest; fewer than four bytes
are rejected as truncated (R40, R53). -/
def Obligations.BytesDecodeLittleEndian : Prop :=
  (∀ (w : Word) (rest : List Byte),
    decodeBytes (byteOfWord w 0 :: byteOfWord w 1 :: byteOfWord w 2 :: byteOfWord w 3 :: rest) =
      (decode w).map (·, rest)) ∧
  (∀ bytes : List Byte, bytes.length < 4 → decodeBytes bytes = .error (.truncated bytes.length))

/-! ## The step (spec/40_cycle.md) -/

/-- A running core with no fault, whose four bytes at an aligned PC decode to an instruction, steps as
that instruction's meaning says; the step adds nothing around it (R74 to R76). -/
def Obligations.StepRunsTheDecodedInstruction : Prop :=
  ∀ (s : State) (i : Instr),
    s.config.wf = true → s.fault = none → s.run = true → aligned s.pc = true →
    decodeBytes [s.byteAt s.pc.toNat, s.byteAt (s.pc.toNat + 1), s.byteAt (s.pc.toNat + 2),
      s.byteAt (s.pc.toNat + 3)] = .ok (i, []) →
    step s = exec i s

/-- A word that selects no instruction is a no-op with the default advance, is counted, and puts out
the diagnostic with the PC and the word (R79). That the diagnostic is an output, given here as a
function of the state before the step, is the spec's and the model's choice (D16, log entry 16). -/
def Obligations.UnimplementedWordIsNoOp : Prop :=
  ∀ (s : State) (w : Word) (e : DecodeReject),
    s.fault = none → s.run = true → memRead s s.pc = .ok w → decode w = .error e →
    ∃ t, step s = .next t ∧ OnlyGoesTo (s.pc + 4) s.run s t ∧
      diagnostic s = some (.unimplemented s.pc w)

/-- A halted core has no step: step, the host's step and every batch run leave the state as it is
(R83, R84; a single step of a halted core is the spec's decision D15, log entry 14). -/
def Obligations.HaltedCoreHasNoStep : Prop :=
  ∀ (s : State) (n : Nat), s.fault = none → s.run = false →
    step s = .next s ∧ hostStep s = s ∧ runFor n s = s

/-- A model fault is recorded and changes nothing else. Steps, batch runs, runToCompletion and the host's
register and memory writes all leave it in place, and reset and loadProgram clear it (R28, R155; the
spec's decision D28, log entry 15). -/
def Obligations.ModelFaultIsStickyUntilReset : Prop :=
  ∀ (s : State) (k : Fault), step s = .fault k →
    hostStep s = { s with fault := some k } ∧ step (hostStep s) = .fault k ∧
    (∀ n, runFor n (hostStep s) = hostStep s ∧
      runToCompletion n (hostStep s) = .faulted (hostStep s)) ∧
    (∀ v, (setHI (hostStep s) v).fault = some k ∧ (setLO (hostStep s) v).fault = some k) ∧
    (∀ n v t, setRegister (hostStep s) n v = .ok t → t.fault = some k) ∧
    (∀ a v t, hostWriteWord (hostStep s) a v = .ok t → t.fault = some k) ∧
    (hostReset (hostStep s)).fault = none ∧
    (∀ words, (loadProgram (hostStep s) words).fault = none)

/-- Every instruction answers a next state, except exactly where `faultOf` says: LW and SW at a
misaligned address, the sub-word accesses as SUBWORD_UNALIGNED says, and DIV's overflow when DIV_OVF
is fault. No instruction is refused (R138 to R141; the spec's decisions D7, D13, D14, log entries 8, 9, 10). -/
def Obligations.InstructionsFaultExactlyWhereTheSpecSays : Prop :=
  ∀ (i : Instr) (s : State),
    (∀ k, exec i s = .fault k ↔ faultOf s i = some k) ∧
    (faultOf s i = none → ∃ t, exec i s = .next t) ∧
    (∀ r, exec i s ≠ .refused r)

/-- The machine is total. A step faults exactly on a core already faulted, on a fetch from a
misaligned PC, and where its instruction does; it is never refused (R28, R75, R138, R141; the spec's
decisions D13, D28, log entries 8, 15). -/
def Obligations.StepFaultsExactlyWhereTheSpecSays : Prop :=
  ∀ s : State,
    (∀ k, step s = .fault k ↔
      s.fault = some k ∨
      (s.fault = none ∧ s.run = true ∧
        ((aligned s.pc = false ∧ k = .misalignedAccess) ∨
          ∃ w i, memRead s s.pc = .ok w ∧ decode w = .ok i ∧ faultOf s i = some k))) ∧
    (∀ r, step s ≠ .refused r)

/-! ## Shifts (spec/41_shift.md) -/

/-- SLL multiplies by a power of two modulo 2^32 and SRL divides by one, for every count 0 to 31, and
each writes only rd (R87, R88; operand roles D3, log entry 6). -/
def Obligations.LogicalShifts : Prop :=
  ∀ (rd rt : RegIndex) (shamt : Shamt) (s : State),
    (∃ t, exec (.sll rd rt shamt) s = .next t ∧
      WritesReg rd (BitVec.ofNat 32 ((s.reg rt).toNat * 2 ^ shamt.toNat)) (s.pc + 4) s t) ∧
    (∃ t, exec (.srl rd rt shamt) s = .next t ∧
      WritesReg rd (BitVec.ofNat 32 ((s.reg rt).toNat / 2 ^ shamt.toNat)) (s.pc + 4) s t)

/-- SRA in arithmetic mode divides the signed value by a power of two, rounding down. In faithful mode
it gives the same for a non-negative operand or a count of 0, and otherwise the open value
SRA_FAITHFUL, whatever that is. It always writes only rd (R89, R90; the spec's decisions D3, D6, log
entries 6, 13). -/
def Obligations.ArithmeticShift : Prop :=
  ∀ (rd rt : RegIndex) (shamt : Shamt) (s : State),
    (s.config.sraMode = .arithmetic ∨ 0 ≤ (s.reg rt).toInt ∨ shamt = 0 →
      ∃ t, exec (.sra rd rt shamt) s = .next t ∧
        WritesReg rd (BitVec.ofInt 32 ((s.reg rt).toInt / 2 ^ shamt.toNat)) (s.pc + 4) s t) ∧
    (s.config.sraMode = .faithful → (s.reg rt).toInt < 0 → shamt ≠ 0 →
      ∃ t, exec (.sra rd rt shamt) s = .next t ∧
        WritesReg rd (Config.sraFaithful (s.reg rt) shamt) (s.pc + 4) s t)

/-! ## Register jumps (spec/42_jump_register.md) -/

/-- JR goes to the register's value, aligned or not. JALR goes to the old value of rs, also when rd
is rs, and links its own address plus 4 into rd (R91, R92; the spec's decisions D3, D31). -/
def Obligations.RegisterJumps : Prop :=
  ∀ (rd rs : RegIndex) (s : State),
    (∃ t, exec (.jr rs) s = .next t ∧ OnlyGoesTo (s.reg rs) s.run s t) ∧
    (∃ t, exec (.jalr rd rs) s = .next t ∧ WritesReg rd (s.pc + 4) (s.reg rs) s t)

/-! ## SYSCALL (spec/43_syscall.md) -/

/-- SYSCALL clears the RunFlag when x[2] is exactly 10 and otherwise does nothing; either way its step
commits. Every word with opcode 0 and funct 0x0C is SYSCALL, whatever its code field (R93). -/
def Obligations.SyscallHaltsExactlyOnTen : Prop :=
  (∀ s : State, s.reg 2 = 0x0000000A →
    ∃ t, exec .syscall s = .next t ∧ OnlyGoesTo (s.pc + 4) false s t) ∧
  (∀ s : State, s.reg 2 ≠ 0x0000000A →
    ∃ t, exec .syscall s = .next t ∧ OnlyGoesTo (s.pc + 4) s.run s t) ∧
  (∀ w : Word, w.extractLsb' 26 6 = 0#6 → w.extractLsb' 0 6 = 0x0C#6 → decode w = .ok .syscall)

/-! ## HI and LO (spec/44_hilo.md) -/

/-- MFHI and MFLO copy HI and LO into rd; MTHI and MTLO write one of HI and LO and leave the other
(R94 to R97; operand roles D3, log entry 6). -/
def Obligations.HiLoMoves : Prop :=
  ∀ (r : RegIndex) (s : State),
    (∃ t, exec (.mfhi r) s = .next t ∧ WritesReg r s.hi (s.pc + 4) s t) ∧
    (∃ t, exec (.mflo r) s = .next t ∧ WritesReg r s.lo (s.pc + 4) s t) ∧
    (∃ t, exec (.mthi r) s = .next t ∧ WritesHiLo (s.reg r) s.lo s t) ∧
    (∃ t, exec (.mtlo r) s = .next t ∧ WritesHiLo s.hi (s.reg r) s t)

/-- MULT leaves HI and LO with hi * 2^32 + lo equal to the signed product, MULTU to the unsigned
product, and nothing else changes (R98, R99; operand roles D3, log entry 6). -/
def Obligations.ProductsSplitIntoHiAndLo : Prop :=
  ∀ (rs rt : RegIndex) (s : State),
    (∃ t h l, exec (.mult rs rt) s = .next t ∧ WritesHiLo h l s t ∧
      h.toInt * 2 ^ 32 + l.toNat = (s.reg rs).toInt * (s.reg rt).toInt) ∧
    (∃ t h l, exec (.multu rs rt) s = .next t ∧ WritesHiLo h l s t ∧
      h.toNat * 2 ^ 32 + l.toNat = (s.reg rs).toNat * (s.reg rt).toNat)

/-- DIVU by a divisor other than 0 leaves the quotient in LO and the remainder in HI: the dividend is
quotient times divisor plus remainder, and the remainder is below the divisor (R100, R102; operand
roles D3, log entry 6). -/
def Obligations.UnsignedDivision : Prop :=
  ∀ (rs rt : RegIndex) (s : State), s.reg rt ≠ 0 →
    ∃ t h l, exec (.divu rs rt) s = .next t ∧ WritesHiLo h l s t ∧
      (s.reg rs).toNat = l.toNat * (s.reg rt).toNat + h.toNat ∧ h.toNat < (s.reg rt).toNat

/-- DIV by a divisor other than 0, outside the overflow case, meets the division laws: the dividend is
quotient times divisor plus remainder, the remainder is smaller than the divisor in size, and it is 0
or has the sign of the dividend (R100, R101; truncation is the spec's decision D8, log entry 11). -/
def Obligations.SignedDivision : Prop :=
  ∀ (rs rt : RegIndex) (s : State), s.reg rt ≠ 0 →
    ¬ (s.reg rs = 0x80000000 ∧ s.reg rt = 0xFFFFFFFF) →
    ∃ t h l, exec (.div rs rt) s = .next t ∧ WritesHiLo h l s t ∧
      (s.reg rs).toInt = l.toInt * (s.reg rt).toInt + h.toInt ∧
      h.toInt.natAbs < (s.reg rt).toInt.natAbs ∧
      (h.toInt = 0 ∨ (h.toInt < 0 ↔ (s.reg rs).toInt < 0))

/-- Division by zero is a silent no-op: DIV and DIVU leave HI and LO as they are, and the step commits
(R101, R102). -/
def Obligations.DivisionByZeroLeavesHiAndLo : Prop :=
  ∀ (rs rt : RegIndex) (s : State), s.reg rt = 0 →
    (∃ t, exec (.div rs rt) s = .next t ∧ WritesHiLo s.hi s.lo s t) ∧
    (∃ t, exec (.divu rs rt) s = .next t ∧ WritesHiLo s.hi s.lo s t)

/-- DIV of 0x80000000 by 0xFFFFFFFF leaves the configured pair in LO and HI, or stops with DivOverflow
when DIV_OVF is fault (R101; the spec's decision D7, log entry 10). -/
def Obligations.SignedDivisionOverflow : Prop :=
  ∀ (rs rt : RegIndex) (s : State), s.reg rs = 0x80000000 → s.reg rt = 0xFFFFFFFF →
    (∀ lo hi, s.config.divOvf = .pair lo hi →
      ∃ t, exec (.div rs rt) s = .next t ∧ WritesHiLo hi lo s t) ∧
    (s.config.divOvf = .fault → exec (.div rs rt) s = .fault .divOverflow)

/-! ## Register arithmetic and logic (spec/45_alu_r.md) -/

/-- ADD and ADDU give the sum modulo 2^32, SUB and SUBU the difference, for every operand and with no
trap on overflow; ADD is ADDU and SUB is SUBU; each writes only rd (R103 to R107; operand roles other
than ADD's are D3, log entry 6). -/
def Obligations.SumsAndDifferencesWrap : Prop :=
  ∀ (rd rs rt : RegIndex) (s : State),
    (∃ t, exec (.add rd rs rt) s = .next t ∧ exec (.addu rd rs rt) s = .next t ∧
      WritesReg rd (BitVec.ofNat 32 ((s.reg rs).toNat + (s.reg rt).toNat)) (s.pc + 4) s t) ∧
    (∃ t, exec (.sub rd rs rt) s = .next t ∧ exec (.subu rd rs rt) s = .next t ∧
      WritesReg rd (BitVec.ofInt 32 ((s.reg rs).toNat - (s.reg rt).toNat)) (s.pc + 4) s t)

/-- AND, OR, XOR and NOR work bit by bit on the two registers and write only rd (R108 to R111; operand
roles D3, log entry 6). -/
def Obligations.BitwiseOperations : Prop :=
  ∀ (rd rs rt : RegIndex) (s : State),
    (∃ t, exec (.and rd rs rt) s = .next t ∧
      WritesReg rd (BitVec.ofNat 32 ((s.reg rs).toNat &&& (s.reg rt).toNat)) (s.pc + 4) s t) ∧
    (∃ t, exec (.or rd rs rt) s = .next t ∧
      WritesReg rd (BitVec.ofNat 32 ((s.reg rs).toNat ||| (s.reg rt).toNat)) (s.pc + 4) s t) ∧
    (∃ t, exec (.xor rd rs rt) s = .next t ∧
      WritesReg rd (BitVec.ofNat 32 ((s.reg rs).toNat ^^^ (s.reg rt).toNat)) (s.pc + 4) s t) ∧
    (∃ t, exec (.nor rd rs rt) s = .next t ∧
      WritesReg rd (BitVec.ofNat 32 (2 ^ 32 - 1 - ((s.reg rs).toNat ||| (s.reg rt).toNat)))
        (s.pc + 4) s t)

/-- SLT and SLTI write 1 when the signed comparison holds and 0 when it does not, and change nothing
else: the core has no flags (R26, R112, R125; that the comparison is signed is D3, log entry 6). -/
def Obligations.SetOnLessThan : Prop :=
  ∀ (rd rs rt : RegIndex) (imm : Imm16) (s : State),
    (∃ t, exec (.slt rd rs rt) s = .next t ∧
      WritesReg rd (if (s.reg rs).toInt < (s.reg rt).toInt then 1 else 0) (s.pc + 4) s t) ∧
    (∃ t, exec (.slti rd rs imm) s = .next t ∧
      WritesReg rd (if (s.reg rs).toInt < imm.toInt then 1 else 0) (s.pc + 4) s t)

/-! ## Branches (spec/46_branch.md) -/

/-- BEQ, BNE, BLTZ and BGEZ go to the branch's own address plus 4 times the signed offset when the
condition holds, and to the next word when it does not; they change nothing else (R113, R115, R116,
R119, R120; operand roles D3, log entry 6). -/
def Obligations.BranchesCountFromThemselves : Prop :=
  ∀ (rs rt : RegIndex) (imm : Imm16) (s : State),
    (∃ t, exec (.beq rs rt imm) s = .next t ∧
      OnlyGoesTo (if s.reg rs = s.reg rt then s.pc + BitVec.ofInt 32 (4 * imm.toInt) else s.pc + 4)
        s.run s t) ∧
    (∃ t, exec (.bne rs rt imm) s = .next t ∧
      OnlyGoesTo (if s.reg rs ≠ s.reg rt then s.pc + BitVec.ofInt 32 (4 * imm.toInt) else s.pc + 4)
        s.run s t) ∧
    (∃ t, exec (.bltz rs imm) s = .next t ∧
      OnlyGoesTo (if (s.reg rs).toInt < 0 then s.pc + BitVec.ofInt 32 (4 * imm.toInt) else s.pc + 4)
        s.run s t) ∧
    (∃ t, exec (.bgez rs imm) s = .next t ∧
      OnlyGoesTo (if 0 ≤ (s.reg rs).toInt then s.pc + BitVec.ofInt 32 (4 * imm.toInt) else s.pc + 4)
        s.run s t)

/-- BLEZ and BGTZ in corrected mode branch on the signed comparison with 0, and in faithful mode on
the open predicates, whatever those are (R114, R117, R118; the spec's decisions D3, D5, log entries
6, 12). -/
def Obligations.BranchesOnSignInBothModes : Prop :=
  ∀ (rs : RegIndex) (imm : Imm16) (s : State),
    (s.config.branchMode = .corrected →
      (∃ t, exec (.blez rs imm) s = .next t ∧
        OnlyGoesTo (if (s.reg rs).toInt ≤ 0 then s.pc + BitVec.ofInt 32 (4 * imm.toInt) else s.pc + 4)
          s.run s t) ∧
      (∃ t, exec (.bgtz rs imm) s = .next t ∧
        OnlyGoesTo (if 0 < (s.reg rs).toInt then s.pc + BitVec.ofInt 32 (4 * imm.toInt) else s.pc + 4)
          s.run s t)) ∧
    (s.config.branchMode = .faithful →
      (∃ t, exec (.blez rs imm) s = .next t ∧
        OnlyGoesTo (if Config.blezFaithful (s.reg rs) then s.pc + BitVec.ofInt 32 (4 * imm.toInt)
          else s.pc + 4) s.run s t) ∧
      (∃ t, exec (.bgtz rs imm) s = .next t ∧
        OnlyGoesTo (if Config.bgtzFaithful (s.reg rs) then s.pc + BitVec.ofInt 32 (4 * imm.toInt)
          else s.pc + 4) s.run s t))

/-! ## Jumps (spec/47_jump.md) -/

/-- J and JAL stay in the 256 MiB region of their own address; JAL also links its own address plus 4
into register 31 and changes no other register (R121, R122; the link register is the spec's decision
D4, log entry 6). -/
def Obligations.JumpsStayInTheirRegion : Prop :=
  ∀ (target : Target) (s : State),
    (∃ t, exec (.j target) s = .next t ∧
      OnlyGoesTo (BitVec.ofNat 32 (s.pc.toNat / 2 ^ 28 * 2 ^ 28 + 4 * target.toNat)) s.run s t) ∧
    (∃ t, exec (.jal target) s = .next t ∧
      WritesReg 31 (s.pc + 4) (BitVec.ofNat 32 (s.pc.toNat / 2 ^ 28 * 2 ^ 28 + 4 * target.toNat)) s t)

/-! ## Immediate arithmetic and logic (spec/48_alu_imm.md) -/

/-- ADDI adds the signed immediate modulo 2^32, with no trap on overflow, writes only rt, register 0
included, and does exactly what ADDIU does. Every word with opcode 0x08 is ADDI on its rt, rs and imm16
fields (R123). -/
def Obligations.AddImmediate : Prop :=
  (∀ (rt rs : RegIndex) (imm : Imm16) (s : State),
    ∃ t, exec (.addi rt rs imm) s = .next t ∧ exec (.addiu rt rs imm) s = .next t ∧
      WritesReg rt (BitVec.ofInt 32 ((s.reg rs).toNat + imm.toInt)) (s.pc + 4) s t) ∧
  (∀ w : Word, w.extractLsb' 26 6 = 0x08#6 →
    decode w = .ok (.addi (w.extractLsb' 16 5).toFin (w.extractLsb' 21 5).toFin (w.extractLsb' 0 16)))

/-- ANDI, ORI and XORI use the zero-extended immediate, and LUI puts it in the upper half with the
lower half zero; each writes only rt (R60, R126 to R129; operand roles D3, log entry 6). -/
def Obligations.LogicalImmediates : Prop :=
  ∀ (rt rs : RegIndex) (imm : Imm16) (s : State),
    (∃ t, exec (.andi rt rs imm) s = .next t ∧
      WritesReg rt (BitVec.ofNat 32 ((s.reg rs).toNat &&& imm.toNat)) (s.pc + 4) s t) ∧
    (∃ t, exec (.ori rt rs imm) s = .next t ∧
      WritesReg rt (BitVec.ofNat 32 ((s.reg rs).toNat ||| imm.toNat)) (s.pc + 4) s t) ∧
    (∃ t, exec (.xori rt rs imm) s = .next t ∧
      WritesReg rt (BitVec.ofNat 32 ((s.reg rs).toNat ^^^ imm.toNat)) (s.pc + 4) s t) ∧
    (∃ t, exec (.lui rt imm) s = .next t ∧
      WritesReg rt (BitVec.ofNat 32 (imm.toNat * 65536)) (s.pc + 4) s t)

/-! ## Loads and stores (spec/49_load_store.md) -/

/-- LW at an aligned effective address loads the little-endian word there, 0 outside the regions, and
writes only rt, also when rt is the base; at a misaligned one it stops (R130, R134; the stop is the
spec's decision D13, log entry 8). -/
def Obligations.LoadWord : Prop :=
  ∀ (rt rs : RegIndex) (imm : Imm16) (s : State), s.config.wf = true →
    (aligned (effectiveAddress s rs imm) = true →
      ∃ t, exec (.lw rt rs imm) s = .next t ∧
        WritesReg rt (s.wordAt (effectiveAddress s rs imm).toNat) (s.pc + 4) s t) ∧
    (aligned (effectiveAddress s rs imm) = false → exec (.lw rt rs imm) s = .fault .misalignedAccess)

/-- LB loads the sign-extended byte at the effective address and LH the sign-extended halfword. At an
address that is no multiple of 4 they do so only in bytewise mode, LH only at an even address;
otherwise they stop (R130 to R133; the spec's decision D14, log entry 9). -/
def Obligations.SubwordLoads : Prop :=
  ∀ (rt rs : RegIndex) (imm : Imm16) (s : State), s.config.wf = true →
    (aligned (effectiveAddress s rs imm) = true ∨ s.config.subwordUnaligned = .bytewise →
      ∃ t, exec (.lb rt rs imm) s = .next t ∧
        WritesReg rt ((s.byteAt (effectiveAddress s rs imm).toNat).signExtend 32) (s.pc + 4) s t) ∧
    (aligned (effectiveAddress s rs imm) = true ∨
        (s.config.subwordUnaligned = .bytewise ∧ (effectiveAddress s rs imm).toNat % 2 = 0) →
      ∃ t, exec (.lh rt rs imm) s = .next t ∧
        WritesReg rt ((s.halfAt (effectiveAddress s rs imm).toNat).signExtend 32) (s.pc + 4) s t) ∧
    (aligned (effectiveAddress s rs imm) = false → s.config.subwordUnaligned = .fault →
      exec (.lb rt rs imm) s = .fault .misalignedAccess ∧
      exec (.lh rt rs imm) s = .fault .misalignedAccess) ∧
    ((effectiveAddress s rs imm).toNat % 2 = 1 → exec (.lh rt rs imm) s = .fault .misalignedAccess)

/-- SW at an aligned effective address stores the four bytes of rt there, little-endian, where a
region holds them, and changes no other byte and no register; at a misaligned one it stops (R130,
R137; the stop is the spec's decision D13, log entry 8). -/
def Obligations.StoreWord : Prop :=
  ∀ (rt rs : RegIndex) (imm : Imm16) (s : State), s.Inv →
    (aligned (effectiveAddress s rs imm) = true →
      ∃ t, exec (.sw rt rs imm) s = .next t ∧
        StoresBytes (effectiveAddress s rs imm).toNat 4 (s.reg rt) s t) ∧
    (aligned (effectiveAddress s rs imm) = false → exec (.sw rt rs imm) s = .fault .misalignedAccess)

/-- SB stores the low byte of rt at the effective address and SH the low two bytes, and no other byte
changes, though the whole word is written back. At an address that is no multiple of 4 they do so only
in bytewise mode, SH only at an even address; otherwise they stop (R130, R131, R135, R136; the spec's
decision D14, log entry 9). -/
def Obligations.SubwordStores : Prop :=
  ∀ (rt rs : RegIndex) (imm : Imm16) (s : State), s.Inv →
    (aligned (effectiveAddress s rs imm) = true ∨ s.config.subwordUnaligned = .bytewise →
      ∃ t, exec (.sb rt rs imm) s = .next t ∧
        StoresBytes (effectiveAddress s rs imm).toNat 1 (s.reg rt) s t) ∧
    (aligned (effectiveAddress s rs imm) = true ∨
        (s.config.subwordUnaligned = .bytewise ∧ (effectiveAddress s rs imm).toNat % 2 = 0) →
      ∃ t, exec (.sh rt rs imm) s = .next t ∧
        StoresBytes (effectiveAddress s rs imm).toNat 2 (s.reg rt) s t) ∧
    (aligned (effectiveAddress s rs imm) = false → s.config.subwordUnaligned = .fault →
      exec (.sb rt rs imm) s = .fault .misalignedAccess ∧
      exec (.sh rt rs imm) s = .fault .misalignedAccess) ∧
    ((effectiveAddress s rs imm).toNat % 2 = 1 → exec (.sh rt rs imm) s = .fault .misalignedAccess)

/-- SW followed by LW from the same effective address yields the stored value, at every aligned
address of a region (R137, R134). -/
def Obligations.StoreThenLoadYieldsTheValue : Prop :=
  ∀ (rt rd rs : RegIndex) (imm : Imm16) (s : State), s.Inv →
    aligned (effectiveAddress s rs imm) = true →
    mapped s.config (effectiveAddress s rs imm).toNat = true →
    ∃ t u, exec (.sw rt rs imm) s = .next t ∧ exec (.lw rd rs imm) t = .next u ∧
      u.reg rd = s.reg rt

/-! ## Memory (spec/20_memory.md) -/

/-- An aligned address in no region reads 0 and takes no write: no fault, and nothing changes (R36,
R38). -/
def Obligations.OutOfRegionReadsZeroDropsWrites : Prop :=
  ∀ (s : State) (a v : Word), aligned a = true → mapped s.config a.toNat = false →
    memRead s a = .ok 0x00000000 ∧ memWrite s a v = .ok s

/-- A word written to an aligned address of a region is the word read back, by the core and by the
host; an aligned address in no region reads 0 (R39). -/
def Obligations.WordWrittenIsWordRead : Prop :=
  (∀ (s : State) (a v : Word), s.Inv → aligned a = true → mapped s.config a.toNat = true →
    ∃ t, memWrite s a v = .ok t ∧ memRead t a = .ok v ∧ hostWriteWord s a v = .ok t ∧
      hostReadWord t a = .ok v) ∧
  (∀ (s : State) (a : Word), aligned a = true → mapped s.config a.toNat = false →
    memRead s a = .ok 0 ∧ hostReadWord s a = .ok 0)

/-- The host's writeWord at an aligned address stores the four bytes of the word where a region holds
them, and changes no other byte and nothing but memory; its readWord gives the little-endian word, and
disassemble its text. At a misaligned address all three are refused (R156, R159; the refusal is the
spec's decision D24, its name the model's, log entry 19). -/
def Obligations.HostAccessesWholeAlignedWords : Prop :=
  ∀ (s : State) (a v : Word), s.Inv →
    (aligned a = true →
      (∃ t, hostWriteWord s a v = .ok t ∧ t = { s with mem := t.mem } ∧
        (∀ k < 4, mapped s.config (a.toNat + k) = true → t.byteAt (a.toNat + k) = byteOfWord v k) ∧
        (∀ b : Nat, (b < a.toNat ∨ a.toNat + 4 ≤ b) → t.byteAt b = s.byteAt b) ∧
        (mapped s.config a.toNat = false → t = s)) ∧
      hostReadWord s a = .ok (s.wordAt a.toNat) ∧
      disassemble s a = .ok (disassembleWord a (s.wordAt a.toNat))) ∧
    (aligned a = false →
      hostWriteWord s a v = .error (.misalignedAddress a) ∧
      hostReadWord s a = .error (.misalignedAddress a) ∧
      disassemble s a = .error (.misalignedAddress a))

/-- After any sequence of aligned word writes, an aligned read in a region gives the value of the
latest write to that address, or what memory held before if there is none: no access is reordered,
buffered or lost (R50). -/
def Obligations.ReadSeesTheLatestWrite : Prop :=
  ∀ (s : State) (ws : List (Word × Word)) (a : Word), s.Inv →
    (∀ w ∈ ws, aligned w.1 = true) → aligned a = true → mapped s.config a.toNat = true →
    memRead (writeAll s ws) a = .ok ((latestWrite ws a).getD (s.wordAt a.toNat))

/-- Fetch is coherent with stores: when SW stores into the word after itself, the next step fetches
the stored word (R52). -/
def Obligations.StoredWordIsFetchedNext : Prop :=
  ∀ (rt rs : RegIndex) (imm : Imm16) (s : State), s.Inv → aligned s.pc = true →
    effectiveAddress s rs imm = s.pc + 4 → mapped s.config (s.pc + 4).toNat = true →
    ∃ t, exec (.sw rt rs imm) s = .next t ∧ memRead t t.pc = .ok (s.reg rt)

/-! ## Rules over all instructions -/

/-- Register 0 is an ordinary register, in every instruction that reads it and in every one that writes
it: exchanging it with any register `k`, in the state and in the operands, exchanges the two registers
in the answer and changes nothing else. The one exception is the register that SYSCALL or JAL uses
without naming it, which is not register 0. So ADD writes register 0 and a later read returns the sum,
and the zero word, which is SLL of register 0, is a no-op in effect (R17, R68; operand roles D3, JAL's
register D4, log entry 6). -/
def Obligations.RegisterZeroIsOrdinary : Prop :=
  (∀ (i : Instr) (k : RegIndex) (s : State), fixedRegister i ≠ some k →
    exec (renameRegs (swapZero k) i) (s.swapZero k) = mapNext (State.swapZero k) (exec i s)) ∧
  (∀ (rs rt rd : RegIndex) (s : State),
    ∃ t u, exec (.add 0 rs rt) s = .next t ∧ t.reg 0 = s.reg rs + s.reg rt ∧
      exec (.or rd 0 0) t = .next u ∧ u.reg rd = s.reg rs + s.reg rt) ∧
  (∀ s : State, ∃ t, decode 0x00000000 = .ok (.sll 0 0 0) ∧ exec (.sll 0 0 0) s = .next t ∧
    OnlyGoesTo (s.pc + 4) s.run s t)

/-- No instruction writes a general register other than its destination, and only the instructions
named write HI and LO (R18, R21). -/
def Obligations.OnlyNamedRegistersChange : Prop :=
  ∀ (i : Instr) (s t : State), exec i s = .next t →
    (∀ r : RegIndex, destination i ≠ some r → t.reg r = s.reg r) ∧
    (mayWriteHi i = false → t.hi = s.hi) ∧ (mayWriteLo i = false → t.lo = s.lo)

/-- Only the halting SYSCALL clears the RunFlag, and no instruction and no step sets it (R22, R82). -/
def Obligations.OnlyHaltingSyscallClearsRun : Prop :=
  (∀ (i : Instr) (s t : State), exec i s = .next t →
    t.run = (if i = .syscall ∧ s.reg 2 = 0x0000000A then false else s.run)) ∧
  (∀ s t : State, step s = .next t → t.run = true → s.run = true)

/-- Only a store changes memory, and only the bytes it stores: SB one byte, SH two, SW four, at its
effective address (R43, R45, R135 to R137). -/
def Obligations.OnlyStoresChangeMemory : Prop :=
  ∀ (i : Instr) (s t : State), s.Inv → exec i s = .next t →
    (storeRange s i = none → ∀ b : Nat, t.byteAt b = s.byteAt b) ∧
    (∀ a n, storeRange s i = some (a, n) →
      ∀ b : Nat, (b < a.toNat ∨ a.toNat + n ≤ b) → t.byteAt b = s.byteAt b)

/-- Every instruction counts one cycle, modulo 2^32, and leaves the configuration, the program image
and the fault as they are (R23, R24, R32; the wrap is the spec's decision D18, log entry 17). -/
def Obligations.EveryInstructionCountsOneCycle : Prop :=
  ∀ (i : Instr) (s t : State), exec i s = .next t →
    t.icount.toNat = (s.icount.toNat + 1) % 2 ^ 32 ∧ Keeps s t

/-- Every instruction but a branch or jump goes to the next word, modulo 2^32 (R77, R78; the wrap is
the spec's decision D19, log entry 17). -/
def Obligations.OnlyBranchesAndJumpsWriteThePc : Prop :=
  ∀ (i : Instr) (s t : State), exec i s = .next t → mayWritePc i = false →
    t.pc.toNat = (s.pc.toNat + 4) % 2 ^ 32

/-- Only JR and JALR can make the PC misaligned: from an aligned PC every other step leaves it aligned
(R75, R113, R121). -/
def Obligations.OnlyRegisterJumpsMisalignThePc : Prop :=
  ∀ s t : State, step s = .next t → aligned s.pc = true →
    aligned t.pc = true ∨
      ∃ w i, memRead s s.pc = .ok w ∧ decode w = .ok i ∧ jumpsToRegister i = true

/-! ## The invariant -/

/-- Every step keeps the invariant, from every state that has it: a configuration that meets R33,
memory in canonical form, and no byte outside the regions (R32, R33). -/
def Obligations.StepKeepsInvariant : Prop :=
  ∀ s t : State, s.Inv → step s = .next t → t.Inv

/-- The state after reset has the invariant. Its configuration is the spec's test configuration D27
(the model's choice, log entry 2). -/
def Obligations.ResetMeetsInvariant : Prop :=
  State.reset.Inv

/-- Every host operation keeps the invariant (R151 to R158). -/
def Obligations.HostOperationsKeepInvariant : Prop :=
  ∀ s : State, s.Inv →
    (hostReset s).Inv ∧ (∀ words, (loadProgram s words).Inv) ∧ (hostStep s).Inv ∧
    (∀ n, (runFor n s).Inv) ∧ (∀ v, (setHI s v).Inv ∧ (setLO s v).Inv) ∧
    (∀ n v t, setRegister s n v = .ok t → t.Inv) ∧
    (∀ a v t, hostWriteWord s a v = .ok t → t.Inv)

/-! ## Reset, load and run (spec/60_exceptions.md, spec/70_reset_and_hazards.md) -/

/-- After reset the PC is TEXT_BASE, every register, HI and LO hold their initial values, the core is
Running with count 0 and no fault, and the image and the configuration are kept (R31, R162; the PC is
the spec's decision D11, the open initial values are D12, log entries 3, 4). -/
def Obligations.ResetGivesInitialValues : Prop :=
  ∀ s : State,
    (hostReset s).pc = s.config.textBase ∧
    (∀ r : RegIndex, (hostReset s).reg r = s.config.initGpr[r]) ∧
    (hostReset s).hi = s.config.initHi ∧ (hostReset s).lo = s.config.initLo ∧
    (hostReset s).run = true ∧ (hostReset s).icount = 0 ∧ (hostReset s).fault = none ∧
    (hostReset s).image = s.image ∧ (hostReset s).config = s.config

/-- Reset is deterministic: from any two states with the same configuration and image it gives the
same state, every register and every byte (R163). -/
def Obligations.ResetIsDeterministic : Prop :=
  ∀ s t : State, s.config = t.config → s.image = t.image → hostReset s = hostReset t

/-- After loadProgram every word of the program stands in memory at TEXT_BASE plus 4 times its place,
where a region holds it, and every other aligned word reads 0 (R48, R152, R162; the full reset is the
spec's decision D25, log entry 18). -/
def Obligations.LoadProgramStoresTheImage : Prop :=
  ∀ (s : State) (words : List Word), s.config.wf = true → 4 * words.length ≤ 2 ^ 32 →
    (∀ (k : Nat) (h : k < words.length), mapped s.config (imageAddress s.config k).toNat = true →
      memRead (loadProgram s words) (imageAddress s.config k) = .ok words[k]) ∧
    (∀ a : Word, aligned a = true → (∀ k < words.length, imageAddress s.config k ≠ a) →
      memRead (loadProgram s words) a = .ok 0)

/-- A batch run of n steps is n steps of the core. A core that cannot step is left as it is; a run whose
core can step before each of its n steps makes n steps, or records the fault that its last step meets;
and a run stops at the first state that cannot step (R84; the stop on a fault is the spec's decision
D28, log entry 15). -/
def Obligations.BatchRunStepsUntilItStops : Prop :=
  ∀ (n : Nat) (s : State),
    (canStep s = false → runFor n s = s) ∧
    ((∀ k < n, canStep (runFor k s) = true) →
      StepsTo n s (runFor n s) ∨
        ∃ m u f, n = m + 1 ∧ StepsTo m s u ∧ step u = .fault f ∧
          runFor n s = { u with fault := some f }) ∧
    (∀ k ≤ n, canStep (runFor k s) = false → runFor n s = runFor k s)

/-- A batch run of n steps after which the core can still step has counted n cycles, modulo 2^32
(R23, R147, R171; the wrap is the spec's decision D18, log entry 17). -/
def Obligations.BatchRunCountsItsSteps : Prop :=
  ∀ (n : Nat) (s : State), canStep (runFor n s) = true →
    instructionCount (runFor n s) = instructionCount s + BitVec.ofNat 32 n

/-- A run ends as Halted only by a step that executed SYSCALL with x[2] = 10: the end is the state
right after that step, and every state before it could step (R82, R86). -/
def Obligations.RunEndsByTheHaltingSyscall : Prop :=
  ∀ (fuel : Nat) (s t : State), canStep s = true → runToCompletion fuel s = .halted t →
    ∃ n w, n < fuel ∧ (∀ k ≤ n, canStep (runFor k s) = true) ∧
      memRead (runFor n s) (runFor n s).pc = .ok w ∧ decode w = .ok .syscall ∧
      (runFor n s).reg 2 = 0x0000000A ∧ step (runFor n s) = .next t ∧ t.run = false

/-- The host's setRegister writes one of the 32 registers, register 0 included, and refuses any other
index with InvalidRegisterIndex; setHI and setLO write HI and LO. Nothing else changes (R157, R158). -/
def Obligations.HostWritesRegisters : Prop :=
  ∀ (s : State) (v : Word),
    (∀ (n : Nat) (h : n < 32), ∃ t, setRegister s n v = .ok t ∧ t.reg ⟨n, h⟩ = v ∧
      (∀ r : RegIndex, r.val ≠ n → t.reg r = s.reg r) ∧ t = { s with gpr := t.gpr }) ∧
    (∀ n : Nat, 32 ≤ n → setRegister s n v = .error (.invalidRegisterIndex n)) ∧
    setHI s v = { s with hi := v } ∧ setLO s v = { s with lo := v }

/-- The disassembler keeps in lock-step with the decoder: a word is rendered as .word exactly when it
is none of the 44 instructions (R69, R72; the text is the spec's decision D20, D29, log entry 20). -/
def Obligations.DisassemblerInLockStep : Prop :=
  ∀ a w : Word,
    (∀ e, decode w = .error e → disassembleWord a w = ".word " ++ hexWord w) ∧
    (∀ i, decode w = .ok i → ∀ v : Word, disassembleWord a w ≠ ".word " ++ hexWord v)
end

