-- ==== Sys2Proof/Laws/Decode.lean ====
section
/-! SUPPORT. The fields of an encoded word, one lemma per field per format; and the field formats as
masks. -/

namespace Sys2Proof

theorem toFin_eq_of_eq_ofFin {b : BitVec 5} {r : RegIndex} (h : b = BitVec.ofFin (w := 5) r) :
    b.toFin = r :=
  congrArg BitVec.toFin h

/-! ## R-format -/

section
variable (rs rt rd : RegIndex) (shamt : Shamt) (funct : BitVec 6)

@[simp] theorem fieldsOf_encodeR_opcode : (fieldsOf (encodeR rs rt rd shamt funct)).opcode = 0 := by
  apply BitVec.eq_of_getLsbD_eq
  intro i hi
  simp only [fieldsOf, encodeR, BitVec.getLsbD_append, BitVec.getLsbD_extractLsb']
  grind

@[simp] theorem fieldsOf_encodeR_rs : (fieldsOf (encodeR rs rt rd shamt funct)).rs = rs := by
  apply toFin_eq_of_eq_ofFin (b := (encodeR rs rt rd shamt funct).extractLsb' 21 5)
  apply BitVec.eq_of_getLsbD_eq
  intro i hi
  simp only [encodeR, BitVec.getLsbD_append, BitVec.getLsbD_extractLsb', hi]
  grind

@[simp] theorem fieldsOf_encodeR_rt : (fieldsOf (encodeR rs rt rd shamt funct)).rt = rt := by
  apply toFin_eq_of_eq_ofFin (b := (encodeR rs rt rd shamt funct).extractLsb' 16 5)
  apply BitVec.eq_of_getLsbD_eq
  intro i hi
  simp only [encodeR, BitVec.getLsbD_append, BitVec.getLsbD_extractLsb', hi]
  grind

@[simp] theorem fieldsOf_encodeR_rd : (fieldsOf (encodeR rs rt rd shamt funct)).rd = rd := by
  apply toFin_eq_of_eq_ofFin (b := (encodeR rs rt rd shamt funct).extractLsb' 11 5)
  apply BitVec.eq_of_getLsbD_eq
  intro i hi
  simp only [encodeR, BitVec.getLsbD_append, BitVec.getLsbD_extractLsb', hi]
  grind

@[simp] theorem fieldsOf_encodeR_shamt : (fieldsOf (encodeR rs rt rd shamt funct)).shamt = shamt := by
  apply BitVec.eq_of_getLsbD_eq
  intro i hi
  simp only [fieldsOf, encodeR, BitVec.getLsbD_append, BitVec.getLsbD_extractLsb', hi]
  grind

@[simp] theorem fieldsOf_encodeR_funct : (fieldsOf (encodeR rs rt rd shamt funct)).funct = funct := by
  apply BitVec.eq_of_getLsbD_eq
  intro i hi
  simp only [fieldsOf, encodeR, BitVec.getLsbD_append, BitVec.getLsbD_extractLsb', hi]
  grind

end

/-! ## I-format and REGIMM -/

section
variable (opcode : BitVec 6) (rs rt : RegIndex) (imm : Imm16)

@[simp] theorem fieldsOf_encodeI_opcode : (fieldsOf (encodeI opcode rs rt imm)).opcode = opcode := by
  apply BitVec.eq_of_getLsbD_eq
  intro i hi
  simp only [fieldsOf, encodeI, BitVec.getLsbD_append, BitVec.getLsbD_extractLsb', hi]
  grind

@[simp] theorem fieldsOf_encodeI_rs : (fieldsOf (encodeI opcode rs rt imm)).rs = rs := by
  apply toFin_eq_of_eq_ofFin (b := (encodeI opcode rs rt imm).extractLsb' 21 5)
  apply BitVec.eq_of_getLsbD_eq
  intro i hi
  simp only [encodeI, BitVec.getLsbD_append, BitVec.getLsbD_extractLsb', hi]
  grind

@[simp] theorem fieldsOf_encodeI_rt : (fieldsOf (encodeI opcode rs rt imm)).rt = rt := by
  apply toFin_eq_of_eq_ofFin (b := (encodeI opcode rs rt imm).extractLsb' 16 5)
  apply BitVec.eq_of_getLsbD_eq
  intro i hi
  simp only [encodeI, BitVec.getLsbD_append, BitVec.getLsbD_extractLsb', hi]
  grind

@[simp] theorem fieldsOf_encodeI_imm16 : (fieldsOf (encodeI opcode rs rt imm)).imm16 = imm := by
  apply BitVec.eq_of_getLsbD_eq
  intro i hi
  simp only [fieldsOf, encodeI, BitVec.getLsbD_append, BitVec.getLsbD_extractLsb', hi]
  grind

end

/-! ## J-format -/

section
variable (opcode : BitVec 6) (target : Target)

@[simp] theorem fieldsOf_encodeJ_opcode : (fieldsOf (encodeJ opcode target)).opcode = opcode := by
  apply BitVec.eq_of_getLsbD_eq
  intro i hi
  simp only [fieldsOf, encodeJ, BitVec.getLsbD_append, BitVec.getLsbD_extractLsb', hi]
  grind

@[simp] theorem fieldsOf_encodeJ_target : (fieldsOf (encodeJ opcode target)).target = target := by
  apply BitVec.eq_of_getLsbD_eq
  intro i hi
  simp only [fieldsOf, encodeJ, BitVec.getLsbD_append, BitVec.getLsbD_extractLsb', hi]
  grind

end

/-! ## Fields as bits of the word -/

/-- Two words with the same bits under a mask agree on every bit the mask has. -/
theorem getLsbD_eq_of_and_eq {w v m : Word} (h : w &&& m = v &&& m) {k : Nat} (hk : m.getLsbD k = true) :
    w.getLsbD k = v.getLsbD k := by
  have := congrArg (BitVec.getLsbD · k) h
  simpa [hk] using this

/-- Two words with the same bits under a mask agree on every field inside the mask. -/
theorem extractLsb'_eq_of_and_eq {w v m : Word} (h : w &&& m = v &&& m) (lo n : Nat)
    (hm : ∀ k, k < n → m.getLsbD (lo + k) = true) : w.extractLsb' lo n = v.extractLsb' lo n := by
  apply BitVec.eq_of_getLsbD_eq
  intro k hk
  simp only [BitVec.getLsbD_extractLsb', hk, decide_true, Bool.true_and]
  exact getLsbD_eq_of_and_eq h (hm k hk)

end Sys2Proof
end

