-- ==== Sys2Proof/Laws/Memory.lean ====
section
/-! SUPPORT. Memory: every operation keeps the canonical form, a read after a write, and what a write
leaves alone. -/

namespace Sys2Proof.Machine

/-! ## The canonical form -/

theorem Memory.wfFrom_cons {lo a : Nat} {b : Byte} {rest : Memory} :
    Memory.wfFrom lo ((a, b) :: rest) = true ↔ (lo ≤ a ∧ b ≠ 0) ∧ rest.wfFrom (a + 1) = true := by
  simp only [Memory.wfFrom, Bool.and_eq_true, decide_eq_true_eq, bne_iff_ne]

theorem Memory.wfFrom_mono {m : Memory} {lo lo' : Nat} (h : lo' ≤ lo) (hm : m.wfFrom lo = true) :
    m.wfFrom lo' = true := by
  cases m with
  | nil => rfl
  | cons c rest =>
    rw [Memory.wfFrom_cons] at hm ⊢
    exact ⟨⟨Nat.le_trans h hm.1.1, hm.1.2⟩, hm.2⟩

theorem Memory.wfFrom_writeByte {m : Memory} {lo a : Nat} (b : Byte) (ha : lo ≤ a)
    (hm : m.wfFrom lo = true) : (m.writeByte a b).wfFrom lo = true := by
  induction m generalizing lo with
  | nil =>
    unfold Memory.writeByte
    split
    · rfl
    · simp_all [Memory.wfFrom]
  | cons c rest ih =>
    obtain ⟨a', b'⟩ := c
    rw [Memory.wfFrom_cons] at hm
    unfold Memory.writeByte
    split
    · rename_i hlt
      have hrest := Memory.wfFrom_cons.mpr ⟨⟨Nat.succ_le_of_lt hlt, hm.1.2⟩, hm.2⟩
      split
      · exact Memory.wfFrom_mono (Nat.le_succ_of_le ha) hrest
      · rename_i hb
        exact Memory.wfFrom_cons.mpr ⟨⟨ha, hb⟩, hrest⟩
    · split
      · subst a'
        split
        · exact Memory.wfFrom_mono (Nat.le_succ_of_le ha) hm.2
        · rename_i hb
          exact Memory.wfFrom_cons.mpr ⟨⟨ha, hb⟩, hm.2⟩
      · rename_i h1 h2
        exact Memory.wfFrom_cons.mpr ⟨hm.1, ih (lo := a' + 1) (by omega) hm.2⟩

/-- A byte write keeps the canonical form. -/
theorem Memory.wf_writeByte {m : Memory} (a : Nat) (b : Byte) (hm : m.wf = true) :
    (m.writeByte a b).wf = true :=
  Memory.wfFrom_writeByte b (Nat.zero_le a) hm

/-- A word write keeps the canonical form. -/
theorem Memory.wf_writeWord {m : Memory} (a : Nat) (v : Word) (hm : m.wf = true) :
    (m.writeWord a v).wf = true := by
  unfold Memory.writeWord
  exact wf_writeByte _ _ (wf_writeByte _ _ (wf_writeByte _ _ (wf_writeByte _ _ hm)))

/-- The empty memory of reset is in canonical form. -/
theorem Memory.wf_nil : Memory.wf [] = true := rfl

/-! ## Reading after writing -/

theorem Memory.readByte_of_wfFrom {m : Memory} {lo a : Nat} (h : a < lo) (hm : m.wfFrom lo = true) :
    m.readByte a = 0 := by
  induction m generalizing lo with
  | nil => rfl
  | cons c rest ih =>
    rw [Memory.wfFrom_cons] at hm
    rw [Memory.readByte, if_neg (by omega)]
    exact ih (lo := c.1 + 1) (by omega) hm.2

/-- A byte write leaves every other byte alone, in any list. -/
theorem Memory.readByte_writeByte_of_ne (m : Memory) {a c : Nat} (b : Byte) (h : c ≠ a) :
    (m.writeByte a b).readByte c = m.readByte c := by
  induction m with
  | nil =>
    unfold Memory.writeByte
    split <;> simp [Memory.readByte, h]
  | cons x rest ih =>
    unfold Memory.writeByte
    split
    · split <;> simp [Memory.readByte, h]
    · split
      · rename_i he
        have hx : c ≠ x.1 := he ▸ h
        split <;> simp [Memory.readByte, h, hx]
      · simp [Memory.readByte, ih]

theorem Memory.readByte_writeByte_self_from {m : Memory} {lo a : Nat} (b : Byte)
    (hm : m.wfFrom lo = true) : (m.writeByte a b).readByte a = b := by
  induction m generalizing lo with
  | nil =>
    unfold Memory.writeByte
    split <;> simp_all [Memory.readByte]
  | cons x rest ih =>
    obtain ⟨a', b'⟩ := x
    rw [Memory.wfFrom_cons] at hm
    unfold Memory.writeByte
    split
    · rename_i hlt
      split
      · rename_i hb
        rw [Memory.readByte, if_neg (by omega), hb]
        exact readByte_of_wfFrom (lo := a' + 1) (by omega) hm.2
      · simp [Memory.readByte]
    · split
      · subst a'
        split
        · rename_i hb
          rw [hb]
          exact readByte_of_wfFrom (lo := a + 1) (by omega) hm.2
        · simp [Memory.readByte]
      · rename_i h1 h2
        rw [Memory.readByte, if_neg h2]
        exact ih hm.2

/-- In a canonical list the byte written is the byte read. -/
theorem Memory.readByte_writeByte_self {m : Memory} (a : Nat) (b : Byte) (hm : m.wf = true) :
    (m.writeByte a b).readByte a = b :=
  readByte_writeByte_self_from b hm

/-- A word write leaves every byte outside its four alone. -/
theorem Memory.readByte_writeWord_of_outside (m : Memory) {a c : Nat} (v : Word)
    (h : c < a ∨ a + 4 ≤ c) : (m.writeWord a v).readByte c = m.readByte c := by
  unfold Memory.writeWord
  rw [readByte_writeByte_of_ne _ _ (by omega), readByte_writeByte_of_ne _ _ (by omega),
    readByte_writeByte_of_ne _ _ (by omega), readByte_writeByte_of_ne _ _ (by omega)]

/-- After a word write to a canonical list, byte `k` of the four is byte `k` of the word. -/
theorem Memory.readByte_writeWord {m : Memory} (a : Nat) (v : Word) (hm : m.wf = true) {k : Nat}
    (hk : k < 4) : (m.writeWord a v).readByte (a + k) = byteOfWord v k := by
  have h0 := wf_writeByte a (byteOfWord v 0) hm
  have h1 := wf_writeByte (a + 1) (byteOfWord v 1) h0
  have h2 := wf_writeByte (a + 2) (byteOfWord v 2) h1
  unfold Memory.writeWord
  obtain rfl | rfl | rfl | rfl : k = 0 ∨ k = 1 ∨ k = 2 ∨ k = 3 := by omega
  · rw [readByte_writeByte_of_ne _ _ (by omega), readByte_writeByte_of_ne _ _ (by omega),
      readByte_writeByte_of_ne _ _ (by omega)]
    exact readByte_writeByte_self _ _ hm
  · rw [readByte_writeByte_of_ne _ _ (by omega), readByte_writeByte_of_ne _ _ (by omega)]
    exact readByte_writeByte_self _ _ h0
  · rw [readByte_writeByte_of_ne _ _ (by omega)]
    exact readByte_writeByte_self _ _ h1
  · exact readByte_writeByte_self _ _ h2

/-! ## Words and their bytes -/

/-- A word is the word of its four bytes. -/
theorem wordOfBytes_byteOfWord (v : Word) :
    wordOfBytes (byteOfWord v 0) (byteOfWord v 1) (byteOfWord v 2) (byteOfWord v 3) = v := by
  apply BitVec.eq_of_getLsbD_eq
  intro i hi
  simp only [wordOfBytes, byteOfWord, BitVec.getLsbD_append, BitVec.getLsbD_extractLsb']
  grind

/-- Byte `k` of a word of four bytes. -/
theorem byteOfWord_wordOfBytes (b0 b1 b2 b3 : Byte) :
    byteOfWord (wordOfBytes b0 b1 b2 b3) 0 = b0 ∧ byteOfWord (wordOfBytes b0 b1 b2 b3) 1 = b1 ∧
      byteOfWord (wordOfBytes b0 b1 b2 b3) 2 = b2 ∧ byteOfWord (wordOfBytes b0 b1 b2 b3) 3 = b3 := by
  refine ⟨?_, ?_, ?_, ?_⟩ <;>
  · ext i hi
    simp only [wordOfBytes, byteOfWord, BitVec.getElem_extractLsb', BitVec.getLsbD_append]
    rw [← BitVec.getLsbD_eq_getElem hi]
    grind

/-- In a canonical list the word written is the word read. -/
theorem Memory.readWord_writeWord {m : Memory} (a : Nat) (v : Word) (hm : m.wf = true) :
    (m.writeWord a v).readWord a = v := by
  unfold Memory.readWord
  rw [readByte_writeWord a v hm (k := 1) (by omega), readByte_writeWord a v hm (k := 2) (by omega),
    readByte_writeWord a v hm (k := 3) (by omega)]
  have h := readByte_writeWord a v hm (k := 0) (by omega)
  rw [Nat.add_zero] at h
  rw [h, wordOfBytes_byteOfWord]

/-! ## The bytes stay inside the regions -/

theorem Memory.mem_writeByte {m : Memory} {a : Nat} {b : Byte} {cell : Host.Cell}
    (h : cell ∈ m.writeByte a b) : cell = (a, b) ∨ cell ∈ m := by
  induction m with
  | nil =>
    unfold Memory.writeByte at h
    split at h <;> simp_all
  | cons x rest ih =>
    unfold Memory.writeByte at h
    split at h
    · split at h <;> simp_all
    · split at h
      · split at h
        · exact .inr (List.mem_cons_of_mem _ h)
        · simp only [List.mem_cons] at h ⊢
          rcases h with h | h
          · exact .inl h
          · exact .inr (.inr h)
      · simp only [List.mem_cons] at h ⊢
        rcases h with h | h
        · exact .inr (.inl h)
        · rcases ih h with h | h
          · exact .inl h
          · exact .inr (.inr h)

theorem memInRegions_writeByte {c : Config} {m : Memory} {a : Nat} (b : Byte)
    (ha : mapped c a = true) (hm : memInRegions c m = true) :
    memInRegions c (m.writeByte a b) = true := by
  simp only [memInRegions, List.all_eq_true] at hm ⊢
  intro cell hcell
  rcases Memory.mem_writeByte hcell with rfl | h
  · exact ha
  · exact hm cell h

/-- R42: where R33 holds, an aligned word that starts in a region lies in it whole. -/
theorem mapped_word {c : Config} (hc : c.wf = true) {a : Nat} (h4 : a % 4 = 0)
    (ha : mapped c a = true) {k : Nat} (hk : k < 4) : mapped c (a + k) = true := by
  simp only [mapped, List.any_eq_true] at ha ⊢
  obtain ⟨g, hg, hin⟩ := ha
  refine ⟨g, hg, ?_⟩
  simp only [Config.wf, Bool.and_eq_true, List.all_eq_true] at hc
  have hw := hc.1.1.1 g hg
  simp only [Region.wf, Region.contains, Bool.and_eq_true, decide_eq_true_eq] at hw hin ⊢
  omega

/-- R42, from below: where R33 holds, a byte of an aligned word is in a region only if its first
byte is. -/
theorem mapped_word_of_byte {c : Config} (hc : c.wf = true) {a : Nat} (h4 : a % 4 = 0) {k : Nat}
    (hk : k < 4) (ha : mapped c (a + k) = true) : mapped c a = true := by
  simp only [mapped, List.any_eq_true] at ha ⊢
  obtain ⟨g, hg, hin⟩ := ha
  refine ⟨g, hg, ?_⟩
  simp only [Config.wf, Bool.and_eq_true, List.all_eq_true] at hc
  have hw := hc.1.1.1 g hg
  simp only [Region.wf, Region.contains, Bool.and_eq_true, decide_eq_true_eq] at hw hin ⊢
  omega

theorem memInRegions_writeWord {c : Config} {m : Memory} {a : Nat} (v : Word) (hc : c.wf = true)
    (h4 : a % 4 = 0) (ha : mapped c a = true) (hm : memInRegions c m = true) :
    memInRegions c (m.writeWord a v) = true := by
  unfold Memory.writeWord
  exact memInRegions_writeByte _ (mapped_word hc h4 ha (by omega))
    (memInRegions_writeByte _ (mapped_word hc h4 ha (by omega))
      (memInRegions_writeByte _ (mapped_word hc h4 ha (by omega))
        (memInRegions_writeByte _ ha hm)))

end Sys2Proof.Machine
end

