-- ==== Sys2Proof/Laws/State.lean ====
section
/-! SUPPORT. One lemma per field per update of State. -/

namespace Sys2Proof.Machine

/-! ## setReg -/

@[simp] theorem State.setReg_config (s : State) (r : RegIndex) (v : Word) : (s.setReg r v).config = s.config := rfl
@[simp] theorem State.setReg_pc (s : State) (r : RegIndex) (v : Word) : (s.setReg r v).pc = s.pc := rfl
@[simp] theorem State.setReg_gpr (s : State) (r : RegIndex) (v : Word) : (s.setReg r v).gpr = s.gpr.set r v := rfl
@[simp] theorem State.setReg_hi (s : State) (r : RegIndex) (v : Word) : (s.setReg r v).hi = s.hi := rfl
@[simp] theorem State.setReg_lo (s : State) (r : RegIndex) (v : Word) : (s.setReg r v).lo = s.lo := rfl
@[simp] theorem State.setReg_run (s : State) (r : RegIndex) (v : Word) : (s.setReg r v).run = s.run := rfl
@[simp] theorem State.setReg_icount (s : State) (r : RegIndex) (v : Word) : (s.setReg r v).icount = s.icount := rfl
@[simp] theorem State.setReg_image (s : State) (r : RegIndex) (v : Word) : (s.setReg r v).image = s.image := rfl
@[simp] theorem State.setReg_mem (s : State) (r : RegIndex) (v : Word) : (s.setReg r v).mem = s.mem := rfl
@[simp] theorem State.setReg_fault (s : State) (r : RegIndex) (v : Word) : (s.setReg r v).fault = s.fault := rfl

/-! ## setHi -/

@[simp] theorem State.setHi_config (s : State) (v : Word) : (s.setHi v).config = s.config := rfl
@[simp] theorem State.setHi_pc (s : State) (v : Word) : (s.setHi v).pc = s.pc := rfl
@[simp] theorem State.setHi_gpr (s : State) (v : Word) : (s.setHi v).gpr = s.gpr := rfl
@[simp] theorem State.setHi_hi (s : State) (v : Word) : (s.setHi v).hi = v := rfl
@[simp] theorem State.setHi_lo (s : State) (v : Word) : (s.setHi v).lo = s.lo := rfl
@[simp] theorem State.setHi_run (s : State) (v : Word) : (s.setHi v).run = s.run := rfl
@[simp] theorem State.setHi_icount (s : State) (v : Word) : (s.setHi v).icount = s.icount := rfl
@[simp] theorem State.setHi_image (s : State) (v : Word) : (s.setHi v).image = s.image := rfl
@[simp] theorem State.setHi_mem (s : State) (v : Word) : (s.setHi v).mem = s.mem := rfl
@[simp] theorem State.setHi_fault (s : State) (v : Word) : (s.setHi v).fault = s.fault := rfl

/-! ## setLo -/

@[simp] theorem State.setLo_config (s : State) (v : Word) : (s.setLo v).config = s.config := rfl
@[simp] theorem State.setLo_pc (s : State) (v : Word) : (s.setLo v).pc = s.pc := rfl
@[simp] theorem State.setLo_gpr (s : State) (v : Word) : (s.setLo v).gpr = s.gpr := rfl
@[simp] theorem State.setLo_hi (s : State) (v : Word) : (s.setLo v).hi = s.hi := rfl
@[simp] theorem State.setLo_lo (s : State) (v : Word) : (s.setLo v).lo = v := rfl
@[simp] theorem State.setLo_run (s : State) (v : Word) : (s.setLo v).run = s.run := rfl
@[simp] theorem State.setLo_icount (s : State) (v : Word) : (s.setLo v).icount = s.icount := rfl
@[simp] theorem State.setLo_image (s : State) (v : Word) : (s.setLo v).image = s.image := rfl
@[simp] theorem State.setLo_mem (s : State) (v : Word) : (s.setLo v).mem = s.mem := rfl
@[simp] theorem State.setLo_fault (s : State) (v : Word) : (s.setLo v).fault = s.fault := rfl

/-! ## commitTo -/

@[simp] theorem State.commitTo_config (s : State) (target : Word) : (s.commitTo target).config = s.config := rfl
@[simp] theorem State.commitTo_pc (s : State) (target : Word) : (s.commitTo target).pc = target := rfl
@[simp] theorem State.commitTo_gpr (s : State) (target : Word) : (s.commitTo target).gpr = s.gpr := rfl
@[simp] theorem State.commitTo_hi (s : State) (target : Word) : (s.commitTo target).hi = s.hi := rfl
@[simp] theorem State.commitTo_lo (s : State) (target : Word) : (s.commitTo target).lo = s.lo := rfl
@[simp] theorem State.commitTo_run (s : State) (target : Word) : (s.commitTo target).run = s.run := rfl
@[simp] theorem State.commitTo_icount (s : State) (target : Word) : (s.commitTo target).icount = s.icount + 1 := rfl
@[simp] theorem State.commitTo_image (s : State) (target : Word) : (s.commitTo target).image = s.image := rfl
@[simp] theorem State.commitTo_mem (s : State) (target : Word) : (s.commitTo target).mem = s.mem := rfl
@[simp] theorem State.commitTo_fault (s : State) (target : Word) : (s.commitTo target).fault = s.fault := rfl

/-! ## commit -/

@[simp] theorem State.commit_config (s : State) : (s.commit).config = s.config := rfl
@[simp] theorem State.commit_pc (s : State) : (s.commit).pc = s.pc + 4 := rfl
@[simp] theorem State.commit_gpr (s : State) : (s.commit).gpr = s.gpr := rfl
@[simp] theorem State.commit_hi (s : State) : (s.commit).hi = s.hi := rfl
@[simp] theorem State.commit_lo (s : State) : (s.commit).lo = s.lo := rfl
@[simp] theorem State.commit_run (s : State) : (s.commit).run = s.run := rfl
@[simp] theorem State.commit_icount (s : State) : (s.commit).icount = s.icount + 1 := rfl
@[simp] theorem State.commit_image (s : State) : (s.commit).image = s.image := rfl
@[simp] theorem State.commit_mem (s : State) : (s.commit).mem = s.mem := rfl
@[simp] theorem State.commit_fault (s : State) : (s.commit).fault = s.fault := rfl

/-! ## Reading registers -/

@[simp] theorem State.reg_setReg_self (s : State) (r : RegIndex) (v : Word) : (s.setReg r v).reg r = v := by
  simp [State.reg, State.setReg]

@[simp] theorem State.reg_setReg_of_ne (s : State) {r d : RegIndex} (v : Word) (h : r ≠ d) :
    (s.setReg d v).reg r = s.reg r := by
  have hv : d.val ≠ r.val := fun e => h (Fin.ext e.symm)
  simp [State.reg, State.setReg, hv]

@[simp] theorem State.reg_setHi (s : State) (v : Word) (r : RegIndex) : (s.setHi v).reg r = s.reg r := rfl
@[simp] theorem State.reg_setLo (s : State) (v : Word) (r : RegIndex) : (s.setLo v).reg r = s.reg r := rfl
@[simp] theorem State.reg_commitTo (s : State) (p : Word) (r : RegIndex) : (s.commitTo p).reg r = s.reg r := rfl
@[simp] theorem State.reg_commit (s : State) (r : RegIndex) : s.commit.reg r = s.reg r := rfl

/-! ## Reading bytes -/

@[simp] theorem State.byteAt_setReg (s : State) (r : RegIndex) (v : Word) (a : Nat) :
    (s.setReg r v).byteAt a = s.byteAt a := rfl
@[simp] theorem State.byteAt_setHi (s : State) (v : Word) (a : Nat) : (s.setHi v).byteAt a = s.byteAt a := rfl
@[simp] theorem State.byteAt_setLo (s : State) (v : Word) (a : Nat) : (s.setLo v).byteAt a = s.byteAt a := rfl
@[simp] theorem State.byteAt_commitTo (s : State) (p : Word) (a : Nat) :
    (s.commitTo p).byteAt a = s.byteAt a := rfl
@[simp] theorem State.byteAt_commit (s : State) (a : Nat) : s.commit.byteAt a = s.byteAt a := rfl

end Sys2Proof.Machine
end

