-- ==== Sys2Proof/Laws/Ops.lean ====
section
/-! SUPPORT. One lemma per shared operation, saying everything it can do. -/

namespace Sys2Proof.Machine

/-! ## The memory primitive -/

theorem aligned_iff {a : Word} : aligned a = true ↔ a.toNat % 4 = 0 := by
  simp [aligned]

/-- R35, R36, R41: what `MemRead` answers. -/
theorem memRead_eq_ok {s : State} {a w : Word} :
    memRead s a = .ok w ↔
      aligned a = true ∧ w = if mapped s.config a.toNat then s.mem.readWord a.toNat else 0 := by
  cases h : aligned a
  · simp [memRead, h]
  · simp only [memRead, h, if_true, Except.ok.injEq, true_and]
    exact eq_comm

/-- R41: `MemRead` faults exactly on a misaligned address. -/
theorem memRead_eq_error {s : State} {a : Word} {f : Fault} :
    memRead s a = .error f ↔ aligned a = false ∧ f = .misalignedAccess := by
  cases h : aligned a
  · simp only [memRead, h, Bool.false_eq_true, if_false, Except.error.injEq, true_and]
    exact eq_comm
  · simp [memRead, h]

/-- R37, R38, R41: what `MemWrite` answers. -/
theorem memWrite_eq_ok {s t : State} {a v : Word} :
    memWrite s a v = .ok t ↔
      aligned a = true ∧
        t = if mapped s.config a.toNat then { s with mem := s.mem.writeWord a.toNat v } else s := by
  cases h : aligned a
  · simp [memWrite, h]
  · simp only [memWrite, h, if_true, Except.ok.injEq, true_and]
    exact eq_comm

/-- R41: `MemWrite` faults exactly on a misaligned address. -/
theorem memWrite_eq_error {s : State} {a v : Word} {f : Fault} :
    memWrite s a v = .error f ↔ aligned a = false ∧ f = .misalignedAccess := by
  cases h : aligned a
  · simp only [memWrite, h, Bool.false_eq_true, if_false, Except.error.injEq, true_and]
    exact eq_comm
  · simp [memWrite, h]

/-- R37, R38: an aligned `MemWrite` succeeds. -/
theorem memWrite_of_aligned (s : State) {a : Word} (v : Word) (h : aligned a = true) :
    memWrite s a v =
      .ok (if mapped s.config a.toNat then { s with mem := s.mem.writeWord a.toNat v } else s) :=
  memWrite_eq_ok.mpr ⟨h, rfl⟩

/-- A word write changes nothing but memory. -/
theorem memWrite_keeps {s t : State} {a v : Word} (h : memWrite s a v = .ok t) :
    t = { s with mem := t.mem } := by
  obtain ⟨-, rfl⟩ := memWrite_eq_ok.mp h
  split <;> rfl

/-- A word write keeps every byte outside its four. -/
theorem memWrite_byteAt_of_outside {s t : State} {a v : Word} (h : memWrite s a v = .ok t) {b : Nat}
    (hb : b < a.toNat ∨ a.toNat + 4 ≤ b) : t.byteAt b = s.byteAt b := by
  obtain ⟨-, rfl⟩ := memWrite_eq_ok.mp h
  split
  · simp [State.byteAt, Memory.readByte_writeWord_of_outside _ _ hb]
  · rfl

/-- A word write stores the four bytes of the word, where a region holds them. -/
theorem memWrite_byteAt_self {s t : State} {a v : Word} (hm : s.mem.wf = true)
    (h : memWrite s a v = .ok t) (ha : mapped s.config a.toNat = true) {k : Nat} (hk : k < 4)
    (hmap : mapped s.config (a.toNat + k) = true) : t.byteAt (a.toNat + k) = byteOfWord v k := by
  obtain ⟨-, rfl⟩ := memWrite_eq_ok.mp h
  simp [ha, State.byteAt, hmap, Memory.readByte_writeWord _ _ hm hk]

/-- A word write keeps the invariant. -/
theorem memWrite_inv {s t : State} {a v : Word} (hs : s.Inv) (h : memWrite s a v = .ok t) : t.Inv := by
  obtain ⟨ha, rfl⟩ := memWrite_eq_ok.mp h
  split
  · rename_i hmap
    exact ⟨hs.config, Memory.wf_writeWord _ _ hs.canonical,
      memInRegions_writeWord _ hs.config (aligned_iff.mp ha) hmap hs.inRegions⟩
  · exact hs

/-- Where R33 holds, an aligned `MemRead` is the word of the four bytes at its address. -/
theorem memRead_eq_wordAt {s : State} (hc : s.config.wf = true) {a : Word} (ha : aligned a = true) :
    memRead s a = .ok (s.wordAt a.toNat) := by
  rw [memRead_eq_ok]
  refine ⟨ha, ?_⟩
  have h4 := aligned_iff.mp ha
  by_cases hm : mapped s.config a.toNat = true
  · simp [State.wordAt, State.byteAt, hm, mapped_word hc h4 hm (k := 1) (by omega),
      mapped_word hc h4 hm (k := 2) (by omega), mapped_word hc h4 hm (k := 3) (by omega),
      Memory.readWord]
  · have hk : ∀ k < 4, ¬ mapped s.config (a.toNat + k) = true := fun k hk h =>
      hm (mapped_word_of_byte hc h4 hk h)
    simp [State.wordAt, State.byteAt, hm, hk 1 (by omega), hk 2 (by omega), hk 3 (by omega),
      wordOfBytes]

/-! ## Sub-word location -/

/-- R131: where a byte access goes, and when it faults. -/
theorem subwordLocate_aligned {mode : SubwordUnaligned} {ea : Word} {size : SubwordSize}
    (h : aligned ea = true) : subwordLocate mode ea size = .ok (ea, 0) := by
  simp [subwordLocate, h]

theorem subwordLocate_fault {ea : Word} {size : SubwordSize} (h : aligned ea = false) :
    subwordLocate .fault ea size = .error .misalignedAccess := by
  simp [subwordLocate, h]

theorem subwordLocate_bytewise_byte {ea : Word} (h : aligned ea = false) :
    subwordLocate .bytewise ea .byte = .ok (ea &&& wordAddressMask, ea.toNat % 4) := by
  simp [subwordLocate, h]

theorem subwordLocate_bytewise_half {ea : Word} (h : aligned ea = false) :
    subwordLocate .bytewise ea .half =
      if ea.toNat % 2 = 1 then .error .misalignedAccess else .ok (ea &&& wordAddressMask, ea.toNat % 4) := by
  simp [subwordLocate, h]

/-! ## The ends of a step -/

/-- A register write and the default advance. -/
theorem writeReg_eq (s : State) (d : RegIndex) (v : Word) :
    writeReg s d v = .next ((s.setReg d v).commitTo (s.pc + 4)) := rfl

/-- A load's end answers the register write of the loaded value, or the fault. -/
theorem finishLoad_eq_next {s t : State} {rt : RegIndex} {v : Except Fault Word}
    (h : finishLoad s rt v = .next t) : ∃ w, v = .ok w ∧ t = (s.setReg rt w).commitTo (s.pc + 4) := by
  cases v with
  | error f => cases h
  | ok w => exact ⟨w, rfl, by simpa [finishLoad, writeReg_eq] using h.symm⟩

/-- A store's end answers the commit of the stored state, or the fault. -/
theorem finishStore_eq_next {t : State} {v : Except Fault State} (h : finishStore v = .next t) :
    ∃ u, v = .ok u ∧ t = u.commit := by
  cases v with
  | error f => cases h
  | ok u => exact ⟨u, rfl, by simpa [finishStore] using h.symm⟩

/-- A sub-word store that succeeds is one word write. -/
theorem storeSubword_eq_ok {s t : State} {ea : Word} {size : SubwordSize} {f : Word → Nat → Word}
    (h : storeSubword s ea size f = .ok t) : ∃ a v, memWrite s a v = .ok t := by
  unfold storeSubword at h
  split at h
  · cases h
  · exact ⟨_, _, h⟩

end Sys2Proof.Machine
end

