-- ==== Sys2Proof/Laws/Exec.lean ====
section
/-! SUPPORT. What an instruction can do, said once: if `exec` answers a next state, it is one of the
five shapes of `ExecCase`. -/

namespace Sys2Proof.Machine

/-- The shapes of a committed cycle. -/
inductive ExecCase (i : Instr) (s : State) : State → Prop where
  /-- Only the PC and the count. -/
  | goes (pc' : Word) (hpc : mayWritePc i = true ∨ pc' = s.pc + 4) : ExecCase i s (s.commitTo pc')
  /-- One general register. -/
  | reg (d : RegIndex) (v pc' : Word) (hd : destination i = some d)
      (hpc : mayWritePc i = true ∨ pc' = s.pc + 4) : ExecCase i s ((s.setReg d v).commitTo pc')
  /-- HI and LO. -/
  | hilo (h l : Word) (hh : mayWriteHi i = true ∨ h = s.hi) (hl : mayWriteLo i = true ∨ l = s.lo) :
      ExecCase i s (((s.setHi h).setLo l).commitTo (s.pc + 4))
  /-- The halting SYSCALL. -/
  | halt (hi : i = .syscall) (h2 : s.reg haltRegister = haltCode) :
      ExecCase i s ({ s with run := false }.commitTo (s.pc + 4))
  /-- One word of memory. -/
  | store (a v : Word) (u : State) (hi : (storeRange s i).isSome = true)
      (hu : memWrite s a v = .ok u) : ExecCase i s (u.commitTo (s.pc + 4))

theorem execCase_writeReg {i : Instr} {s t : State} {d : RegIndex} {v : Word}
    (hd : destination i = some d) (h : writeReg s d v = .next t) : ExecCase i s t := by
  rw [writeReg_eq] at h
  cases h
  exact .reg d v _ hd (.inr rfl)

theorem execCase_branch {i : Instr} {s t : State} {c : Bool} {imm : Imm16} (hi : mayWritePc i = true)
    (h : branchIf s c imm = .next t) : ExecCase i s t := by
  unfold branchIf at h
  cases c <;> cases h
  · exact .goes _ (.inl hi)
  · exact .goes _ (.inl hi)

theorem execCase_hilo {i : Instr} {s t : State} {h l : Word} (hh : mayWriteHi i = true)
    (hl : mayWriteLo i = true) (ht : writeHiLo s h l = .next t) : ExecCase i s t := by
  cases ht
  exact .hilo h l (.inl hh) (.inl hl)

theorem execCase_load {i : Instr} {s t : State} {rt : RegIndex} {v : Except Fault Word}
    (hd : destination i = some rt) (h : finishLoad s rt v = .next t) : ExecCase i s t := by
  obtain ⟨w, -, rfl⟩ := finishLoad_eq_next h
  exact .reg rt w _ hd (.inr rfl)

theorem execCase_store {i : Instr} {s t : State} {r : Except Fault State}
    (hi : (storeRange s i).isSome = true) (hr : ∀ u, r = .ok u → ∃ a v, memWrite s a v = .ok u)
    (h : finishStore r = .next t) : ExecCase i s t := by
  obtain ⟨u, hu, rfl⟩ := finishStore_eq_next h
  obtain ⟨a, v, hw⟩ := hr u hu
  have hpc : u.pc = s.pc := by rw [memWrite_keeps hw]
  rw [State.commit, hpc]
  exact .store a v u hi hw

theorem execCase_div {s t : State} {rs rt : RegIndex} (h : execDiv rs rt s = .next t) :
    ExecCase (.div rs rt) s t := by
  unfold execDiv at h
  dsimp only at h
  split at h
  · cases h
    exact .goes _ (.inr rfl)
  · split at h
    · split at h
      · cases h
      · exact execCase_hilo rfl rfl h
    · exact execCase_hilo rfl rfl h

theorem execCase_divu {s t : State} {rs rt : RegIndex} (h : execDivu rs rt s = .next t) :
    ExecCase (.divu rs rt) s t := by
  unfold execDivu at h
  dsimp only at h
  split at h
  · cases h
    exact .goes _ (.inr rfl)
  · exact execCase_hilo rfl rfl h

theorem execCase_syscall {s t : State} (h : execSyscall s = .next t) : ExecCase .syscall s t := by
  unfold execSyscall at h
  split at h
  · rename_i h2
    cases h
    exact .halt rfl h2
  · cases h
    exact .goes (s.pc + 4) (.inr rfl)

theorem execCase_sw {s t : State} {rt rs : RegIndex} {imm : Imm16} (h : execSw rt rs imm s = .next t) :
    ExecCase (.sw rt rs imm) s t := by
  unfold execSw at h
  split at h
  · cases h
  · exact execCase_store rfl (fun u hu => ⟨_, _, hu⟩) h

/-- Every next state of `exec` has one of the five shapes. -/
theorem exec_cases {i : Instr} {s t : State} (h : exec i s = .next t) : ExecCase i s t := by
  cases i with
  | jr rs => cases h; exact .goes _ (.inl rfl)
  | jalr rd rs => cases h; exact .reg _ _ _ rfl (.inl rfl)
  | j target => cases h; exact .goes _ (.inl rfl)
  | jal target => cases h; exact .reg _ _ _ rfl (.inl rfl)
  | syscall => exact execCase_syscall h
  | mthi rs => cases h; exact ExecCase.hilo (i := .mthi rs) (s := s) (s.reg rs) s.lo (.inl rfl) (.inr rfl)
  | mtlo rs => cases h; exact ExecCase.hilo (i := .mtlo rs) (s := s) s.hi (s.reg rs) (.inr rfl) (.inl rfl)
  | mult rs rt => exact execCase_hilo rfl rfl h
  | multu rs rt => exact execCase_hilo rfl rfl h
  | div rs rt => exact execCase_div h
  | divu rs rt => exact execCase_divu h
  | bltz rs imm => exact execCase_branch rfl h
  | bgez rs imm => exact execCase_branch rfl h
  | beq rs rt imm => exact execCase_branch rfl h
  | bne rs rt imm => exact execCase_branch rfl h
  | blez rs imm => exact execCase_branch rfl h
  | bgtz rs imm => exact execCase_branch rfl h
  | lb rt rs imm => exact execCase_load rfl h
  | lh rt rs imm => exact execCase_load rfl h
  | lw rt rs imm => exact execCase_load rfl h
  | sb rt rs imm => exact execCase_store rfl (fun _ hu => storeSubword_eq_ok hu) h
  | sh rt rs imm => exact execCase_store rfl (fun _ hu => storeSubword_eq_ok hu) h
  | sw rt rs imm => exact execCase_sw h
  | sll | srl | sra | mfhi | mflo | add | addu | sub | subu | and | or | xor | nor | slt | addi | addiu | slti
  | andi | ori | xori | lui => exact execCase_writeReg rfl h

end Sys2Proof.Machine
end

