-- ==== Sys2Proof/Laws/Effects.lean ====
section
/-! SUPPORT. The effect of each shape of a committed cycle, in the terms of Safety.lean: one lemma per
shape. -/

namespace Sys2Proof.Machine

theorem commits_commitTo {s u : State} (pc' : Word) (hu : u.icount = s.icount) :
    Commits pc' s (u.commitTo pc') :=
  ⟨rfl, by simp [hu, BitVec.toNat_add]⟩

/-- A register write and a commit do exactly that. -/
theorem writesReg_setReg_commitTo (s : State) (d : RegIndex) (v pc' : Word) :
    WritesReg d v pc' s ((s.setReg d v).commitTo pc') where
  dest    := by simp
  others  := fun _ h => by simp [h]
  hi      := rfl
  lo      := rfl
  run     := rfl
  memory  := fun _ => rfl
  keeps   := ⟨rfl, rfl, rfl⟩
  commits := commits_commitTo pc' rfl

/-- `writeReg` answers a register write and the default advance. -/
theorem writeReg_writesReg (s : State) (d : RegIndex) (v : Word) :
    ∃ t, writeReg s d v = .next t ∧ WritesReg d v (s.pc + 4) s t :=
  ⟨_, writeReg_eq s d v, writesReg_setReg_commitTo s d v (s.pc + 4)⟩

/-- `writeHiLo` answers a write of HI and LO and the default advance. -/
theorem writeHiLo_writesHiLo (s : State) (h l : Word) :
    ∃ t, writeHiLo s h l = .next t ∧ WritesHiLo h l s t :=
  ⟨_, rfl, { hi := rfl, lo := rfl, regs := fun _ => rfl, run := rfl, memory := fun _ => rfl,
             keeps := ⟨rfl, rfl, rfl⟩, commits := commits_commitTo _ rfl }⟩

/-- A commit alone changes only the PC and the count. -/
theorem onlyGoesTo_commitTo (s : State) (pc' : Word) : OnlyGoesTo pc' s.run s (s.commitTo pc') where
  regs    := fun _ => rfl
  hi      := rfl
  lo      := rfl
  run     := rfl
  memory  := fun _ => rfl
  keeps   := ⟨rfl, rfl, rfl⟩
  commits := commits_commitTo pc' rfl

/-- A branch goes to its target or to the next word. -/
theorem branchIf_onlyGoesTo (s : State) (c : Bool) (imm : Imm16) :
    ∃ t, branchIf s c imm = .next t ∧
      OnlyGoesTo (if c then branchTarget s.pc imm else s.pc + 4) s.run s t := by
  refine ⟨_, rfl, ?_⟩
  cases c
  · exact onlyGoesTo_commitTo s _
  · exact onlyGoesTo_commitTo s _

/-- A commit of a word write stores the bytes of the word and nothing else. -/
theorem storesBytes_memWrite {s t : State} {a v : Word} (hs : s.Inv) (h : memWrite s a v = .ok t) :
    StoresBytes a.toNat 4 v s t.commit := by
  have hk := memWrite_keeps h
  have ha := aligned_iff.mp (memWrite_eq_ok.mp h).1
  have hpc : t.pc = s.pc := by rw [hk]
  refine { stored := ?_, memory := ?_, dropped := ?_, regs := ?_, hi := ?_, lo := ?_, run := ?_,
           keeps := ?_, commits := ?_ }
  · intro k hk4 hm
    exact memWrite_byteAt_self hs.canonical h (mapped_word_of_byte hs.config ha hk4 hm) hk4 hm
  · intro b hb
    exact memWrite_byteAt_of_outside h hb
  · intro k _ hm
    have hm' : mapped t.config (a.toNat + k) = false := by rw [hk]; exact hm
    simp [State.byteAt, hm, hm']
  · intro r
    rw [hk]
    rfl
  · rw [hk]
    rfl
  · rw [hk]
    rfl
  · rw [hk]
    rfl
  · rw [hk]
    exact ⟨rfl, rfl, rfl⟩
  · rw [State.commit, hpc]
    exact commits_commitTo _ (by rw [hk])

end Sys2Proof.Machine
end

