-- ==== Sys2Proof/Laws/Lanes.lean ====
section
/-! SUPPORT. Byte lanes: what a lane holds, what a splice changes, and where a sub-word access goes. -/

namespace Sys2Proof.Machine

/-! ## Lanes of a word -/

/-- A byte lane is a byte of the word. -/
theorem byteLane_eq (w : Word) (k : Nat) : byteLane w k = byteOfWord w k := rfl

/-- A halfword lane is two bytes of the word. -/
theorem halfLane_eq (w : Word) (k : Nat) : halfLane w k = byteOfWord w (k + 1) ++ byteOfWord w k := by
  apply BitVec.eq_of_getLsbD_eq
  intro i hi
  simp only [halfLane, byteOfWord, BitVec.getLsbD_append, BitVec.getLsbD_extractLsb', hi]
  grind

/-- A byte splice replaces one byte of the word. -/
theorem byteOfWord_spliceByte (w : Word) {k j : Nat} (b : Byte) (hk : k < 4) (hj : j < 4) :
    byteOfWord (spliceByte w k b) j = if j = k then b else byteOfWord w j := by
  have hm : ∀ i < 32, byteMask.getLsbD i = decide (i < 8) := by decide
  apply BitVec.eq_of_getLsbD_eq
  intro i hi
  have hb : ∀ n, 8 ≤ n → b.getLsbD n = false := fun n hn => BitVec.getLsbD_of_ge _ _ hn
  have hmi := hm (8 * j + i - 8 * k) (by omega)
  have hbi := hb (8 * j + i - 8 * k)
  rw [apply_ite (BitVec.getLsbD · i)]
  simp only [byteOfWord, spliceByte, BitVec.getLsbD_extractLsb', BitVec.getLsbD_or, BitVec.getLsbD_and,
    BitVec.getLsbD_not, BitVec.getLsbD_shiftLeft, BitVec.getLsbD_setWidth, hmi]
  grind

/-- A halfword splice replaces two bytes of the word. -/
theorem byteOfWord_spliceHalf (w : Word) {k j : Nat} (h : Half) (hk : k < 3) (hj : j < 4) :
    byteOfWord (spliceHalf w k h) j =
      if j = k then h.extractLsb' 0 8 else if j = k + 1 then h.extractLsb' 8 8 else byteOfWord w j := by
  have hm : ∀ i < 32, halfMask.getLsbD i = decide (i < 16) := by decide
  apply BitVec.eq_of_getLsbD_eq
  intro i hi
  have hmi := hm (8 * j + i - 8 * k) (by omega)
  have hb : 16 ≤ 8 * j + i - 8 * k → h.getLsbD (8 * j + i - 8 * k) = false :=
    fun hn => BitVec.getLsbD_of_ge _ _ hn
  rw [apply_ite (BitVec.getLsbD · i), apply_ite (BitVec.getLsbD · i)]
  simp only [byteOfWord, spliceHalf, BitVec.getLsbD_extractLsb', BitVec.getLsbD_or, BitVec.getLsbD_and,
    BitVec.getLsbD_not, BitVec.getLsbD_shiftLeft, BitVec.getLsbD_setWidth, hmi]
  grind

/-! ## The word of an address -/

/-- The address of the word that holds a byte. -/
theorem toNat_wordAddress (ea : Word) : (ea &&& wordAddressMask).toNat = ea.toNat / 4 * 4 := by
  have hm : ∀ k < 32, wordAddressMask.getLsbD k = decide (2 ≤ k) := by decide
  have h : ea &&& wordAddressMask = (ea >>> 2) <<< 2 := by
    apply BitVec.eq_of_getLsbD_eq
    intro k hk
    simp only [BitVec.getLsbD_and, hm k hk, BitVec.getLsbD_shiftLeft, BitVec.getLsbD_ushiftRight]
    grind
  have := ea.isLt
  rw [h]
  simp only [BitVec.toNat_shiftLeft, BitVec.toNat_ushiftRight, Nat.shiftLeft_eq, Nat.shiftRight_eq_div_pow]
  omega

theorem aligned_wordAddress (ea : Word) : aligned (ea &&& wordAddressMask) = true := by
  rw [aligned_iff, toNat_wordAddress]
  omega

/-- R131: a located access goes to the aligned word of its effective address, and its lane is the
address's place in that word. -/
theorem subwordLocate_eq_ok {mode : SubwordUnaligned} {ea wa : Word} {size : SubwordSize} {k : Nat}
    (h : subwordLocate mode ea size = .ok (wa, k)) :
    aligned wa = true ∧ ea.toNat = wa.toNat + k ∧ k < 4 ∧ (size = .half → k < 3) := by
  have hw := toNat_wordAddress ea
  have hw' := aligned_wordAddress ea
  unfold subwordLocate at h
  split at h
  · cases h
    exact ⟨by assumption, rfl, by omega, fun _ => by omega⟩
  · split at h
    · cases h
    · cases h
      exact ⟨hw', by omega, by omega, fun e => by cases e⟩
    · split at h
      · cases h
      · cases h
        exact ⟨hw', by omega, by omega, fun _ => by omega⟩

/-- Byte `k` of the word at an address is the byte `k` places on. -/
theorem byteOfWord_wordAt (s : State) (a : Nat) {k : Nat} (hk : k < 4) :
    byteOfWord (s.wordAt a) k = s.byteAt (a + k) := by
  obtain ⟨h0, h1, h2, h3⟩ :=
    byteOfWord_wordOfBytes (s.byteAt a) (s.byteAt (a + 1)) (s.byteAt (a + 2)) (s.byteAt (a + 3))
  obtain rfl | rfl | rfl | rfl : k = 0 ∨ k = 1 ∨ k = 2 ∨ k = 3 := by omega
  · exact h0
  · exact h1
  · exact h2
  · exact h3

/-- R131: a byte access is located where its address is aligned or the mode is bytewise. -/
theorem subwordLocate_byte_ok {mode : SubwordUnaligned} {ea : Word}
    (h : aligned ea = true ∨ mode = .bytewise) :
    ∃ wa k, subwordLocate mode ea .byte = .ok (wa, k) := by
  cases ha : aligned ea
  · simp only [ha, Bool.false_eq_true, false_or] at h
    exact ⟨_, _, h ▸ subwordLocate_bytewise_byte ha⟩
  · exact ⟨_, _, subwordLocate_aligned ha⟩

/-- R131: a halfword access is located where its address is aligned, or even in bytewise mode. -/
theorem subwordLocate_half_ok {mode : SubwordUnaligned} {ea : Word}
    (h : aligned ea = true ∨ (mode = .bytewise ∧ ea.toNat % 2 = 0)) :
    ∃ wa k, subwordLocate mode ea .half = .ok (wa, k) := by
  cases ha : aligned ea
  · simp only [ha, Bool.false_eq_true, false_or] at h
    refine ⟨_, _, h.1 ▸ (subwordLocate_bytewise_half ha).trans (if_neg ?_)⟩
    rw [h.2]
    decide
  · exact ⟨_, _, subwordLocate_aligned ha⟩

/-- R131: a halfword access at an odd address faults in both modes. -/
theorem subwordLocate_half_odd {mode : SubwordUnaligned} {ea : Word} (h : ea.toNat % 2 = 1) :
    subwordLocate mode ea .half = .error .misalignedAccess := by
  have ha : aligned ea = false := by
    simp [aligned]
    omega
  cases mode
  · exact subwordLocate_fault ha
  · rw [subwordLocate_bytewise_half ha, if_pos h]

/-- Where R33 holds, a sub-word access fetches the word that holds its address. -/
theorem readSubword_eq {s : State} (hc : s.config.wf = true) {ea wa : Word} {size : SubwordSize}
    {k : Nat} (h : subwordLocate s.config.subwordUnaligned ea size = .ok (wa, k)) :
    readSubword s ea size = .ok (wa, k, s.wordAt wa.toNat) := by
  simp only [readSubword, h, memRead_eq_wordAt hc (subwordLocate_eq_ok h).1]

/-- A sub-word access faults exactly where it is not located. -/
theorem readSubword_eq_error {s : State} {ea : Word} {size : SubwordSize} {f : Fault}
    (h : subwordLocate s.config.subwordUnaligned ea size = .error f) :
    readSubword s ea size = .error f := by
  simp only [readSubword, h]

/-- R135, R136: writing back a word whose lane from `k` on holds the low `n` bytes of `v`, the other
bytes as they were, stores those `n` bytes and changes no other. -/
theorem storesBytes_memWrite_lane {s t : State} (hs : s.Inv) {ea wa v w : Word} {k n : Nat}
    (hea : ea.toNat = wa.toNat + k) (hwa : aligned wa = true) (hkn : k + n ≤ 4)
    (hw : ∀ j < 4, byteOfWord w j =
      if k ≤ j ∧ j < k + n then byteOfWord v (j - k) else s.byteAt (wa.toNat + j))
    (ht : memWrite s wa w = .ok t) : StoresBytes ea.toNat n v s t.commit := by
  have hb := storesBytes_memWrite hs ht
  have ha := aligned_iff.mp hwa
  refine { hb with stored := ?_, memory := ?_, dropped := ?_ }
  · intro j hj hm
    rw [hea, Nat.add_assoc] at hm ⊢
    rw [hb.stored (k + j) (by omega) hm, hw _ (by omega), if_pos (by omega), Nat.add_sub_cancel_left]
  · intro b hbb
    by_cases hin : b < wa.toNat ∨ wa.toNat + 4 ≤ b
    · exact hb.memory b hin
    · obtain ⟨j, rfl⟩ : ∃ j, b = wa.toNat + j := ⟨b - wa.toNat, by omega⟩
      cases hm : mapped s.config (wa.toNat + j)
      · exact hb.dropped j (by omega) hm
      · rw [hb.stored j (by omega) hm, hw _ (by omega), if_neg (by omega)]
  · intro j hj hm
    rw [hea, Nat.add_assoc] at hm ⊢
    exact hb.dropped _ (by omega) hm

end Sys2Proof.Machine
end

