-- ==== Sys2Proof/Laws/Operands.lean ====
section
/-! SUPPORT. Each operand form as exact arithmetic: what it computes as a number. -/

namespace Sys2Proof.Machine

theorem toInt_signExtend16 (imm : Imm16) : (signExtend16 imm).toInt = imm.toInt := by
  unfold signExtend16
  exact BitVec.toInt_signExtend_of_le (by omega)

theorem signExtend16_eq_ofInt (imm : Imm16) : signExtend16 imm = BitVec.ofInt 32 imm.toInt := by
  rw [← toInt_signExtend16, BitVec.ofInt_toInt]

theorem toNat_zeroExtend16 (imm : Imm16) : (zeroExtend16 imm).toNat = imm.toNat := by
  have := imm.isLt
  simp [zeroExtend16]
  omega

theorem toNat_upperImmediate (imm : Imm16) : (upperImmediate imm).toNat = imm.toNat * 65536 := by
  have h : (imm ++ 0#16 : BitVec (16 + 16)).toNat = imm.toNat <<< 16 ||| (0#16).toNat :=
    BitVec.toNat_append imm 0#16
  exact h.trans (by simp [Nat.shiftLeft_eq])

/-- R61: the branch offset is 4 times the signed immediate. -/
theorem branchOffset_eq_ofInt (imm : Imm16) : branchOffset imm = BitVec.ofInt 32 (4 * imm.toInt) := by
  rw [branchOffset, signExtend16_eq_ofInt, BitVec.shiftLeft_eq_mul_twoPow,
    Int.mul_comm, BitVec.ofInt_mul]
  rfl

/-- R113. -/
theorem branchTarget_eq (pc : Word) (imm : Imm16) :
    branchTarget pc imm = pc + BitVec.ofInt 32 (4 * imm.toInt) := by
  rw [branchTarget, branchOffset_eq_ofInt]

/-- R62: the jump target as a number. -/
theorem jumpTarget_eq_ofNat (pc : Word) (target : Target) :
    jumpTarget pc target = BitVec.ofNat 32 (pc.toNat / 2 ^ 28 * 2 ^ 28 + 4 * target.toNat) := by
  have hm : ∀ k < 32, jumpRegionMask.getLsbD k = decide (28 ≤ k) := by decide
  have ht := target.isLt
  have hp := pc.isLt
  apply BitVec.eq_of_getLsbD_eq
  intro k hk
  have e : pc.toNat / 2 ^ 28 * 2 ^ 28 + 4 * target.toNat
      = 2 ^ 28 * (pc.toNat / 2 ^ 28) + 2 ^ 2 * target.toNat := by omega
  rw [e, BitVec.getLsbD_ofNat, Nat.testBit_two_pow_mul_add _ (by omega)]
  simp only [jumpTarget, BitVec.getLsbD_or, BitVec.getLsbD_and, hm k hk, BitVec.getLsbD_shiftLeft,
    BitVec.getLsbD_setWidth, hk]
  by_cases h28 : k < 28
  · simp only [h28]
    rw [Nat.testBit_two_pow_mul]
    grind
  · simp only [h28]
    have : target.getLsbD (k - 2) = false := BitVec.getLsbD_of_ge _ _ (by omega)
    rw [Nat.testBit_div_two_pow]
    grind

end Sys2Proof.Machine
end

