-- ==== Sys2Proof/Laws/PerInstr.lean ====
section
/-! SUPPORT. Statements made for each instruction, one lemma a constructor. -/

namespace Sys2Proof

/-! ## The selecting bits of each format -/

theorem encodeR_and_maskR (rs rt rd : RegIndex) (shamt : Shamt) (funct : BitVec 6) :
    encodeR rs rt rd shamt funct &&& maskR = funct.setWidth 32 := by
  have hm : ∀ k < 32, maskR.getLsbD k = (decide (k < 6) || decide (26 ≤ k)) := by decide
  apply BitVec.eq_of_getLsbD_eq
  intro k hk
  simp only [encodeR, BitVec.getLsbD_and, BitVec.getLsbD_append, BitVec.getLsbD_setWidth, hk, hm k hk]
  grind

theorem encodeI_and_maskOp (opcode : BitVec 6) (rs rt : RegIndex) (imm : Imm16) :
    encodeI opcode rs rt imm &&& maskOp = opcode ++ 0#26 := by
  have hm : ∀ k < 32, maskOp.getLsbD k = decide (26 ≤ k) := by decide
  apply BitVec.eq_of_getLsbD_eq
  intro k hk
  simp only [encodeI, BitVec.getLsbD_and, BitVec.getLsbD_append, hm k hk]
  grind

theorem encodeI_and_maskRegimm (opcode : BitVec 6) (rs rt : RegIndex) (imm : Imm16) :
    encodeI opcode rs rt imm &&& maskRegimm = opcode ++ 0#5 ++ BitVec.ofFin (w := 5) rt ++ 0#16 := by
  have hm : ∀ k < 32, maskRegimm.getLsbD k = (decide (16 ≤ k ∧ k < 21) || decide (26 ≤ k)) := by decide
  apply BitVec.eq_of_getLsbD_eq
  intro k hk
  simp only [encodeI, BitVec.getLsbD_and, BitVec.getLsbD_append, hm k hk]
  grind

theorem encodeJ_and_maskOp (opcode : BitVec 6) (target : Target) :
    encodeJ opcode target &&& maskOp = opcode ++ 0#26 := by
  have hm : ∀ k < 32, maskOp.getLsbD k = decide (26 ≤ k) := by decide
  apply BitVec.eq_of_getLsbD_eq
  intro k hk
  simp only [encodeJ, BitVec.getLsbD_and, BitVec.getLsbD_append, hm k hk]
  grind

end Sys2Proof

namespace Sys2Proof.Laws.RowOf

/-- The encoder's word matches the instruction's row of the opcode table: its selecting bits are the
row's (spec/opcode_table.json, R64, R65). -/
def Statement (i : Instr) : Prop :=
  (opcodeRow i).selects (encode i)

theorem sll (rd rt : RegIndex) (shamt : Shamt) : Statement (.sll rd rt shamt) :=
  encodeR_and_maskR _ _ _ _ _

theorem srl (rd rt : RegIndex) (shamt : Shamt) : Statement (.srl rd rt shamt) :=
  encodeR_and_maskR _ _ _ _ _

theorem sra (rd rt : RegIndex) (shamt : Shamt) : Statement (.sra rd rt shamt) :=
  encodeR_and_maskR _ _ _ _ _

theorem jr (rs : RegIndex) : Statement (.jr rs) :=
  encodeR_and_maskR _ _ _ _ _

theorem jalr (rd rs : RegIndex) : Statement (.jalr rd rs) :=
  encodeR_and_maskR _ _ _ _ _

theorem syscall : Statement .syscall :=
  encodeR_and_maskR _ _ _ _ _

theorem mfhi (rd : RegIndex) : Statement (.mfhi rd) :=
  encodeR_and_maskR _ _ _ _ _

theorem mthi (rs : RegIndex) : Statement (.mthi rs) :=
  encodeR_and_maskR _ _ _ _ _

theorem mflo (rd : RegIndex) : Statement (.mflo rd) :=
  encodeR_and_maskR _ _ _ _ _

theorem mtlo (rs : RegIndex) : Statement (.mtlo rs) :=
  encodeR_and_maskR _ _ _ _ _

theorem mult (rs rt : RegIndex) : Statement (.mult rs rt) :=
  encodeR_and_maskR _ _ _ _ _

theorem multu (rs rt : RegIndex) : Statement (.multu rs rt) :=
  encodeR_and_maskR _ _ _ _ _

theorem div (rs rt : RegIndex) : Statement (.div rs rt) :=
  encodeR_and_maskR _ _ _ _ _

theorem divu (rs rt : RegIndex) : Statement (.divu rs rt) :=
  encodeR_and_maskR _ _ _ _ _

theorem add (rd rs rt : RegIndex) : Statement (.add rd rs rt) :=
  encodeR_and_maskR _ _ _ _ _

theorem addu (rd rs rt : RegIndex) : Statement (.addu rd rs rt) :=
  encodeR_and_maskR _ _ _ _ _

theorem sub (rd rs rt : RegIndex) : Statement (.sub rd rs rt) :=
  encodeR_and_maskR _ _ _ _ _

theorem subu (rd rs rt : RegIndex) : Statement (.subu rd rs rt) :=
  encodeR_and_maskR _ _ _ _ _

theorem and (rd rs rt : RegIndex) : Statement (.and rd rs rt) :=
  encodeR_and_maskR _ _ _ _ _

theorem or (rd rs rt : RegIndex) : Statement (.or rd rs rt) :=
  encodeR_and_maskR _ _ _ _ _

theorem xor (rd rs rt : RegIndex) : Statement (.xor rd rs rt) :=
  encodeR_and_maskR _ _ _ _ _

theorem nor (rd rs rt : RegIndex) : Statement (.nor rd rs rt) :=
  encodeR_and_maskR _ _ _ _ _

theorem slt (rd rs rt : RegIndex) : Statement (.slt rd rs rt) :=
  encodeR_and_maskR _ _ _ _ _

theorem bltz (rs : RegIndex) (imm16 : Imm16) : Statement (.bltz rs imm16) :=
  encodeI_and_maskRegimm _ _ _ _

theorem bgez (rs : RegIndex) (imm16 : Imm16) : Statement (.bgez rs imm16) :=
  encodeI_and_maskRegimm _ _ _ _

theorem beq (rs rt : RegIndex) (imm16 : Imm16) : Statement (.beq rs rt imm16) :=
  encodeI_and_maskOp _ _ _ _

theorem bne (rs rt : RegIndex) (imm16 : Imm16) : Statement (.bne rs rt imm16) :=
  encodeI_and_maskOp _ _ _ _

theorem blez (rs : RegIndex) (imm16 : Imm16) : Statement (.blez rs imm16) :=
  encodeI_and_maskOp _ _ _ _

theorem bgtz (rs : RegIndex) (imm16 : Imm16) : Statement (.bgtz rs imm16) :=
  encodeI_and_maskOp _ _ _ _

theorem j (target : Target) : Statement (.j target) :=
  encodeJ_and_maskOp _ _

theorem jal (target : Target) : Statement (.jal target) :=
  encodeJ_and_maskOp _ _

theorem addi (rt rs : RegIndex) (imm16 : Imm16) : Statement (.addi rt rs imm16) :=
  encodeI_and_maskOp _ _ _ _

theorem addiu (rt rs : RegIndex) (imm16 : Imm16) : Statement (.addiu rt rs imm16) :=
  encodeI_and_maskOp _ _ _ _

theorem slti (rt rs : RegIndex) (imm16 : Imm16) : Statement (.slti rt rs imm16) :=
  encodeI_and_maskOp _ _ _ _

theorem andi (rt rs : RegIndex) (imm16 : Imm16) : Statement (.andi rt rs imm16) :=
  encodeI_and_maskOp _ _ _ _

theorem ori (rt rs : RegIndex) (imm16 : Imm16) : Statement (.ori rt rs imm16) :=
  encodeI_and_maskOp _ _ _ _

theorem xori (rt rs : RegIndex) (imm16 : Imm16) : Statement (.xori rt rs imm16) :=
  encodeI_and_maskOp _ _ _ _

theorem lui (rt : RegIndex) (imm16 : Imm16) : Statement (.lui rt imm16) :=
  encodeI_and_maskOp _ _ _ _

theorem lb (rt rs : RegIndex) (imm16 : Imm16) : Statement (.lb rt rs imm16) :=
  encodeI_and_maskOp _ _ _ _

theorem lh (rt rs : RegIndex) (imm16 : Imm16) : Statement (.lh rt rs imm16) :=
  encodeI_and_maskOp _ _ _ _

theorem lw (rt rs : RegIndex) (imm16 : Imm16) : Statement (.lw rt rs imm16) :=
  encodeI_and_maskOp _ _ _ _

theorem sb (rt rs : RegIndex) (imm16 : Imm16) : Statement (.sb rt rs imm16) :=
  encodeI_and_maskOp _ _ _ _

theorem sh (rt rs : RegIndex) (imm16 : Imm16) : Statement (.sh rt rs imm16) :=
  encodeI_and_maskOp _ _ _ _

theorem sw (rt rs : RegIndex) (imm16 : Imm16) : Statement (.sw rt rs imm16) :=
  encodeI_and_maskOp _ _ _ _

end Sys2Proof.Laws.RowOf
end

