-- ==== Sys2Proof/Laws/Rename.lean ====
section
/-! SUPPORT. The exchange of register 0 with another: every accessor and every update under it. -/

namespace Sys2Proof.Machine

@[simp] theorem swapZero_swapZero (k r : RegIndex) : swapZero k (swapZero k r) = r := by
  unfold swapZero
  grind

theorem swapZero_injective {k r d : RegIndex} (h : swapZero k r = swapZero k d) : r = d := by
  rw [← swapZero_swapZero k r, h, swapZero_swapZero]

/-- A register other than 0 and `k` keeps its name. -/
theorem swapZero_of_ne {k r : RegIndex} (h0 : r ≠ 0) (hk : r ≠ k) : swapZero k r = r := by
  simp [swapZero, h0, hk]

/-- Two states that agree register by register and field by field are one. -/
theorem State.ext_reg {s t : State} (hc : s.config = t.config) (hp : s.pc = t.pc)
    (hr : ∀ r : RegIndex, s.reg r = t.reg r) (hh : s.hi = t.hi) (hl : s.lo = t.lo) (hrun : s.run = t.run)
    (hi : s.icount = t.icount) (him : s.image = t.image) (hm : s.mem = t.mem) (hf : s.fault = t.fault) :
    s = t := by
  have hg : s.gpr = t.gpr := Vector.ext fun i h => hr ⟨i, h⟩
  cases s
  cases t
  simp_all

@[simp] theorem State.swapZero_config (k : RegIndex) (s : State) : (s.swapZero k).config = s.config := rfl
@[simp] theorem State.swapZero_pc (k : RegIndex) (s : State) : (s.swapZero k).pc = s.pc := rfl
@[simp] theorem State.swapZero_hi (k : RegIndex) (s : State) : (s.swapZero k).hi = s.hi := rfl
@[simp] theorem State.swapZero_lo (k : RegIndex) (s : State) : (s.swapZero k).lo = s.lo := rfl
@[simp] theorem State.swapZero_run (k : RegIndex) (s : State) : (s.swapZero k).run = s.run := rfl
@[simp] theorem State.swapZero_icount (k : RegIndex) (s : State) : (s.swapZero k).icount = s.icount := rfl
@[simp] theorem State.swapZero_image (k : RegIndex) (s : State) : (s.swapZero k).image = s.image := rfl
@[simp] theorem State.swapZero_mem (k : RegIndex) (s : State) : (s.swapZero k).mem = s.mem := rfl
@[simp] theorem State.swapZero_fault (k : RegIndex) (s : State) : (s.swapZero k).fault = s.fault := rfl

/-- Each register of the exchanged state holds what the register it is exchanged with held. -/
theorem State.reg_swapZero (k r : RegIndex) (s : State) :
    (s.swapZero k).reg r = s.reg (Machine.swapZero k r) := by
  unfold State.swapZero Machine.swapZero
  by_cases hk : r = k
  · subst hk
    by_cases h0 : r = 0 <;> simp [h0]
  · by_cases h0 : r = 0
    · subst h0
      simp [hk]
    · simp [hk, h0]

/-- A renamed operand reads the value the operand read. -/
@[simp] theorem State.reg_swapZero_swapZero (k r : RegIndex) (s : State) :
    (s.swapZero k).reg (Machine.swapZero k r) = s.reg r := by
  rw [State.reg_swapZero, swapZero_swapZero]

/-- A write to the renamed register is the exchange of the write. -/
theorem State.swapZero_setReg (k r : RegIndex) (v : Word) (s : State) :
    (s.setReg r v).swapZero k = (s.swapZero k).setReg (Machine.swapZero k r) v := by
  refine State.ext_reg rfl rfl (fun d => ?_) rfl rfl rfl rfl rfl rfl rfl
  rw [State.reg_swapZero]
  by_cases h : d = Machine.swapZero k r
  · subst h
    simp
  · have h' : Machine.swapZero k d ≠ r := fun e => h (by rw [← e, swapZero_swapZero])
    simp [h, h', State.reg_swapZero]

theorem State.swapZero_setHi (k : RegIndex) (v : Word) (s : State) :
    (s.setHi v).swapZero k = (s.swapZero k).setHi v := rfl

theorem State.swapZero_setLo (k : RegIndex) (v : Word) (s : State) :
    (s.setLo v).swapZero k = (s.swapZero k).setLo v := rfl

theorem State.swapZero_commitTo (k : RegIndex) (p : Word) (s : State) :
    (s.commitTo p).swapZero k = (s.swapZero k).commitTo p := rfl

theorem State.swapZero_commit (k : RegIndex) (s : State) :
    s.commit.swapZero k = (s.swapZero k).commit := rfl

/-- A word read does not depend on the registers. -/
theorem memRead_swapZero (k : RegIndex) (s : State) (a : Word) : memRead (s.swapZero k) a = memRead s a := rfl

/-- A word write commutes with the exchange. -/
theorem memWrite_swapZero (k : RegIndex) (s : State) (a v : Word) :
    memWrite (s.swapZero k) a v = (memWrite s a v).map (State.swapZero k) := by
  unfold memWrite
  split
  · cases h : mapped s.config a.toNat <;> simp [h] <;> rfl
  · rfl

/-- The end of a register write commutes with the exchange. -/
theorem writeReg_swapZero (k r : RegIndex) (v : Word) (s : State) :
    writeReg (s.swapZero k) (swapZero k r) v = mapNext (State.swapZero k) (writeReg s r v) := by
  simp only [writeReg, mapNext, State.swapZero_commit, State.swapZero_setReg]

/-- A branch commutes with the exchange. -/
theorem branchIf_swapZero (k : RegIndex) (s : State) (c : Bool) (imm : Imm16) :
    branchIf (s.swapZero k) c imm = mapNext (State.swapZero k) (branchIf s c imm) := by
  cases c <;> rfl

/-- An effective address is that of the renamed base. -/
theorem effectiveAddress_swapZero (k rs : RegIndex) (imm : Imm16) (s : State) :
    effectiveAddress (s.swapZero k) (swapZero k rs) imm = effectiveAddress s rs imm := by
  simp [effectiveAddress]

theorem readSubword_swapZero (k : RegIndex) (s : State) (ea : Word) (size : SubwordSize) :
    readSubword (s.swapZero k) ea size = readSubword s ea size := rfl

/-- The end of a load commutes with the exchange. -/
theorem finishLoad_swapZero (k rt : RegIndex) (v : Except Fault Word) (s : State) :
    finishLoad (s.swapZero k) (swapZero k rt) v = mapNext (State.swapZero k) (finishLoad s rt v) := by
  cases v with
  | error f => rfl
  | ok w => exact writeReg_swapZero k rt w s

/-- The end of a store commutes with the exchange. -/
theorem finishStore_swapZero (k : RegIndex) (v : Except Fault State) :
    finishStore (v.map (State.swapZero k)) = mapNext (State.swapZero k) (finishStore v) := by
  cases v <;> rfl

theorem storeSubword_swapZero (k : RegIndex) (s : State) (ea : Word) (size : SubwordSize)
    (f : Word → Nat → Word) :
    storeSubword (s.swapZero k) ea size f = (storeSubword s ea size f).map (State.swapZero k) := by
  unfold storeSubword
  rw [readSubword_swapZero]
  split
  · rfl
  · rw [memWrite_swapZero]

end Sys2Proof.Machine
end

