-- ==== Sys2Proof/Laws/Step.lean ====
section
/-! SUPPORT. What a step can do, said once. -/

namespace Sys2Proof.Machine

/-- A next state of `step` comes from a halted core, an unimplemented word or an instruction. -/
theorem step_cases {s t : State} (h : step s = .next t) :
    s.fault = none ∧
      ((s.run = false ∧ t = s) ∨
        (s.run = true ∧ ∃ w, fetch s = .ok w ∧
          (((∃ e, decode w = .error e) ∧ t = s.commit) ∨ ∃ i, decode w = .ok i ∧ exec i s = .next t))) := by
  unfold step stepFaulted stepHalted execUnimplemented at h
  cases hf : s.fault with
  | some k =>
    rw [hf] at h
    cases h
  | none =>
    rw [hf] at h
    refine ⟨rfl, ?_⟩
    cases hr : s.run with
    | false =>
      rw [hr] at h
      cases h
      exact .inl ⟨rfl, rfl⟩
    | true =>
      rw [hr] at h
      cases hw : fetch s with
      | error k =>
        rw [hw] at h
        cases h
      | ok w =>
        rw [hw] at h
        refine .inr ⟨rfl, w, rfl, ?_⟩
        cases hd : decode w with
        | error e =>
          simp only [hd] at h
          cases h
          exact .inl ⟨⟨e, rfl⟩, rfl⟩
        | ok i =>
          simp only [hd] at h
          exact .inr ⟨i, rfl, h⟩

/-- A running core runs the instruction it fetches. -/
theorem step_eq_exec {s : State} {w : Word} {i : Instr} (hf : s.fault = none) (hr : s.run = true)
    (hw : fetch s = .ok w) (hd : decode w = .ok i) : step s = exec i s := by
  simp [step, hf, hr, hw, hd]

end Sys2Proof.Machine
end

