-- ==== Sys2Proof/Tests/Slice0.lean ====
section
/-! SUPPORT. Tests. The expected results are those of spec/95_test_vectors.md, or worked by hand from
the rule a test's docstring names. Each test of an instruction is one step of the test configuration
with the word at 0x00400000. Under "Witnesses" stands, for every claim with hypotheses, a state and
operands that meet them, clause by clause. -/

open Sys2Proof Sys2Proof.Machine

namespace Sys2Proof.Tests

/-! ## Helpers -/

/-- Registers set one after another. -/
def setRegs (s : State) (rs : List (RegIndex × Word)) : State :=
  rs.foldl (fun t r => t.setReg r.1 r.2) s

/-- The reset state with the word at the PC and the registers given. -/
def start (w : Nat) (rs : List (RegIndex × Word)) : State :=
  setRegs (State.reset.withFetchWord 32 w) rs

/-- Memory with one more word. -/
def withData (s : State) (a : Nat) (v : Word) : State :=
  { s with mem := s.mem.writeWord a v }

def inBytewise (s : State) : State :=
  { s with config := { s.config with subwordUnaligned := .bytewise } }

def inFaithful (s : State) : State :=
  { s with config := { s.config with sraMode := .faithful, branchMode := .faithful } }

def inDivFault (s : State) : State :=
  { s with config := { s.config with divOvf := .fault } }

def halted (s : State) : State :=
  { s with run := false }

/-- The next state of an answer. -/
def nextOf : Result State → Option State
  | .next t    => some t
  | .fault _   => none
  | .refused _ => none

/-- The model fault of an answer. -/
def stopOf : Result State → Option Fault
  | .next _    => none
  | .fault k   => some k
  | .refused _ => none

/-- The error of a refused operation. -/
def errorOf {ε α : Type} : Except ε α → Option ε
  | .ok _    => none
  | .error e => some e

/-- The instruction a word decodes to. -/
def decoded (w : Word) : Option Instr :=
  (decode w).toOption

/-- One observation of the state after one step. -/
def after {α : Type} (s : State) (f : State → α) : Option α :=
  (nextOf (step s)).map f

/-- A word of memory as the host reads it. -/
def wordOf (s : State) (a : Word) : Option Word :=
  (hostReadWord s a).toOption

/-! ## Well-formedness: each check refuses a term that fails only it (20_memory.md R33, D10) -/

theorem test_wf_accepts_the_test_configuration : testConfig.wf = true := by decide

theorem test_wf_refuses_overlapping_regions :
    { testConfig with regions := [textRegion, dataRegion, ⟨"x", 0x1001FFFC, 0x1002FFFF⟩] }.wf = false := by
  decide

theorem test_wf_refuses_bounds_out_of_order :
    { testConfig with regions := [textRegion, ⟨"x", 0x10010000, 0x1000FFFF⟩] }.wf = false := by decide

theorem test_wf_refuses_an_unaligned_start :
    { testConfig with regions := [textRegion, ⟨"x", 0x10010002, 0x1001FFFF⟩] }.wf = false := by decide

theorem test_wf_refuses_an_unaligned_end :
    { testConfig with regions := [textRegion, ⟨"x", 0x10010000, 0x1001FFFE⟩] }.wf = false := by decide

theorem test_wf_refuses_a_text_base_outside : { testConfig with textBase := 0x00500000 }.wf = false := by
  decide

theorem test_wf_refuses_an_unaligned_text_base : { testConfig with textBase := 0x00400002 }.wf = false := by
  decide

theorem test_wf_register_index : checkRegIndex 31 = some 31 ∧ checkRegIndex 32 = none := by decide

/-! ## Decoding: every constructor by a word of the spec, or one written out from R55 to R58 -/

theorem test_decode_shifts :
    decoded 0x00094100 = some (.sll 8 9 4) ∧ decoded 0x000957C2 = some (.srl 10 9 31) ∧
    decoded 0x00095103 = some (.sra 10 9 4) := by decide

theorem test_decode_register_jumps :
    decoded 0x03E00008 = some (.jr 31) ∧ decoded 0x01004009 = some (.jalr 8 8) ∧
    decoded 0x0100F809 = some (.jalr 31 8) := by decide

/-- The code field is not looked at (R67). -/
theorem test_decode_syscall :
    decoded 0x0000000C = some .syscall ∧ decoded 0x03FFFFCC = some .syscall := by decide

theorem test_decode_hilo :
    decoded 0x00004010 = some (.mfhi 8) ∧ decoded 0x01000011 = some (.mthi 8) ∧
    decoded 0x00004012 = some (.mflo 8) ∧ decoded 0x01000013 = some (.mtlo 8) ∧
    decoded 0x01090018 = some (.mult 8 9) ∧ decoded 0x01090019 = some (.multu 8 9) ∧
    decoded 0x0109001A = some (.div 8 9) ∧ decoded 0x0109001B = some (.divu 8 9) := by decide

theorem test_decode_alu_r :
    decoded 0x01095020 = some (.add 10 8 9) ∧ decoded 0x01095021 = some (.addu 10 8 9) ∧
    decoded 0x01095022 = some (.sub 10 8 9) ∧ decoded 0x01095023 = some (.subu 10 8 9) ∧
    decoded 0x01095024 = some (.and 10 8 9) ∧ decoded 0x01095025 = some (.or 10 8 9) ∧
    decoded 0x01095026 = some (.xor 10 8 9) ∧ decoded 0x01095027 = some (.nor 10 8 9) ∧
    decoded 0x0109502A = some (.slt 10 8 9) ∧ decoded 0x010951E0 = some (.add 10 8 9) := by decide

theorem test_decode_branches :
    decoded 0x11090003 = some (.beq 8 9 3) ∧ decoded 0x1509FFFF = some (.bne 8 9 0xFFFF) ∧
    decoded 0x19000002 = some (.blez 8 2) ∧ decoded 0x1D000002 = some (.bgtz 8 2) ∧
    decoded 0x05000002 = some (.bltz 8 2) ∧ decoded 0x05010002 = some (.bgez 8 2) := by decide

theorem test_decode_jumps :
    decoded 0x08100008 = some (.j 0x0100008) ∧ decoded 0x0C100040 = some (.jal 0x0100040) := by decide

theorem test_decode_alu_imm :
    decoded 0x20090005 = some (.addi 9 0 5) ∧ decoded 0x25098000 = some (.addiu 9 8 0x8000) ∧
    decoded 0x29098000 = some (.slti 9 8 0x8000) ∧ decoded 0x3109FFFF = some (.andi 9 8 0xFFFF) ∧
    decoded 0x35098000 = some (.ori 9 8 0x8000) ∧ decoded 0x3909FFFF = some (.xori 9 8 0xFFFF) ∧
    decoded 0x3C09FFFF = some (.lui 9 0xFFFF) ∧ decoded 0x3D091234 = some (.lui 9 0x1234) := by decide

theorem test_decode_loads_and_stores :
    decoded 0x81090001 = some (.lb 9 8 1) ∧ decoded 0x85090004 = some (.lh 9 8 4) ∧
    decoded 0x8D09FFFC = some (.lw 9 8 0xFFFC) ∧ decoded 0xA1090003 = some (.sb 9 8 3) ∧
    decoded 0xA5090000 = some (.sh 9 8 0) ∧ decoded 0xAD090001 = some (.sw 9 8 1) := by decide

/-- R66: what is listed nowhere is rejected by name. -/
theorem test_decode_rejects :
    errorOf (decode 0xFC000000) = some (.unimplementedOpcode 0x3F) ∧
    errorOf (decode 0x0000682B) = some (.unimplementedFunct 0x2B) ∧
    errorOf (decode 0x05020002) = some (.unimplementedRegimm 2) ∧
    errorOf (decodeBytes [0x20, 0x50, 0x09]) = some (.truncated 3) := by decide

/-- The word as the host places it: little-endian, bits from `nbits` on read 0. -/
theorem test_decode_table_word :
    decodeTableWord 32 0x01095020 = some (.add 10 8 9) ∧ decodeTableWord 32 0xFC000000 = none ∧
    (decodeBytes [0x20, 0x50, 0x09, 0x01, 0xFF]).toOption = some (.add 10 8 9, [0xFF]) := by decide

/-! ## One step of each instruction (spec/95_test_vectors.md) -/

theorem test_sll : after (start 0x000957C0 [(9, 3)]) (·.reg 10) = some 0x80000000 := by decide

theorem test_sll_rd_is_rt : after (start 0x00094840 [(9, 0x40000000)]) (·.reg 9) = some 0x80000000 := by
  decide

theorem test_srl : after (start 0x00094102 [(9, 0x80000000)]) (·.reg 8) = some 0x08000000 := by decide

theorem test_sra : after (start 0x00094103 [(9, 0x80000000)]) (·.reg 8) = some 0xF8000000 := by decide

theorem test_sra_by_31 : after (start 0x000957C3 [(9, 0x80000000)]) (·.reg 10) = some 0xFFFFFFFF := by
  decide

theorem test_jr_misaligned_target_does_not_fault :
    after (start 0x01000008 [(8, 0x00400102)]) (·.pc) = some 0x00400102 := by decide

theorem test_jalr_rd_is_rs :
    after (start 0x01004009 [(8, 0x00400100)]) (fun t => (t.pc, t.reg 8)) =
      some (0x00400100, 0x00400004) := by decide

theorem test_jalr_links_register_zero :
    after (start 0x01000009 [(8, 0x00400100)]) (·.reg 0) = some 0x00400004 := by decide

theorem test_syscall_halts :
    after (start 0x0000000C [(2, 10)]) (fun t => (t.run, t.pc, t.icount)) =
      some (false, 0x00400004, 1) := by decide

/-- The comparison is on all 32 bits. -/
theorem test_syscall_goes_on :
    after (start 0x0000000C [(2, 0x1000000A)]) (fun t => (t.run, t.pc)) = some (true, 0x00400004) := by
  decide

theorem test_mfhi : after { start 0x00004010 [] with hi := 0x1234 } (·.reg 8) = some 0x1234 := by decide

theorem test_mthi : after (start 0x01000011 [(8, 0xDEAD)]) (fun t => (t.hi, t.lo)) = some (0xDEAD, 0) := by
  decide

theorem test_mflo : after { start 0x00004012 [] with lo := 0x5678 } (·.reg 8) = some 0x5678 := by decide

theorem test_mtlo : after (start 0x01000013 [(8, 0xBEEF)]) (fun t => (t.hi, t.lo)) = some (0, 0xBEEF) := by
  decide

theorem test_mult :
    after (start 0x01090018 [(8, 0xFFFFFFFF), (9, 2)]) (fun t => (t.hi, t.lo)) =
      some (0xFFFFFFFF, 0xFFFFFFFE) := by decide

theorem test_mult_most_negative :
    after (start 0x01090018 [(8, 0x80000000), (9, 0x80000000)]) (fun t => (t.hi, t.lo)) =
      some (0x40000000, 0) := by decide

theorem test_multu :
    after (start 0x01090019 [(8, 0xFFFFFFFF), (9, 2)]) (fun t => (t.hi, t.lo)) =
      some (0x00000001, 0xFFFFFFFE) := by decide

/-- -7 / 2. -/
theorem test_div_truncates :
    after (start 0x0109001A [(8, 0xFFFFFFF9), (9, 2)]) (fun t => (t.lo, t.hi)) =
      some (0xFFFFFFFD, 0xFFFFFFFF) := by decide

/-- 7 / -2. -/
theorem test_div_negative_divisor :
    after (start 0x0109001A [(8, 7), (9, 0xFFFFFFFE)]) (fun t => (t.lo, t.hi)) =
      some (0xFFFFFFFD, 1) := by decide

theorem test_div_by_zero :
    after { start 0x0109001A [(8, 5)] with hi := 0x11, lo := 0x22 } (fun t => (t.hi, t.lo, t.pc)) =
      some (0x11, 0x22, 0x00400004) := by decide

theorem test_div_overflow :
    after (start 0x0109001A [(8, 0x80000000), (9, 0xFFFFFFFF)]) (fun t => (t.lo, t.hi)) =
      some (0x80000000, 0) := by decide

theorem test_div_overflow_as_fault :
    stopOf (step (inDivFault (start 0x0109001A [(8, 0x80000000), (9, 0xFFFFFFFF)]))) =
      some .divOverflow := by decide

theorem test_divu :
    after (start 0x0109001B [(8, 0x80000000), (9, 0xFFFFFFFF)]) (fun t => (t.lo, t.hi)) =
      some (0, 0x80000000) := by decide

theorem test_divu_by_zero :
    after { start 0x0109001B [(8, 7)] with hi := 0x11, lo := 0x22 } (fun t => (t.hi, t.lo)) =
      some (0x11, 0x22) := by decide

theorem test_add_wraps :
    after (start 0x01095020 [(8, 0x7FFFFFFF), (9, 1)]) (·.reg 10) = some 0x80000000 := by decide

theorem test_add_writes_register_zero : after (start 0x01090020 [(8, 1), (9, 2)]) (·.reg 0) = some 3 := by
  decide

theorem test_addu_wraps : after (start 0x01095021 [(8, 0xFFFFFFFF), (9, 1)]) (·.reg 10) = some 0 := by
  decide

theorem test_sub_wraps :
    after (start 0x01095022 [(8, 0x80000000), (9, 1)]) (·.reg 10) = some 0x7FFFFFFF := by decide

theorem test_subu_wraps : after (start 0x01095023 [(9, 1)]) (·.reg 10) = some 0xFFFFFFFF := by decide

theorem test_and :
    after (start 0x01095024 [(8, 0xF0F0F0F0), (9, 0xFF00FF00)]) (·.reg 10) = some 0xF000F000 := by decide

theorem test_or :
    after (start 0x01095025 [(8, 0xF0F0F0F0), (9, 0xFF00FF00)]) (·.reg 10) = some 0xFFF0FFF0 := by decide

theorem test_xor :
    after (start 0x01095026 [(8, 0xF0F0F0F0), (9, 0xFF00FF00)]) (·.reg 10) = some 0x0FF00FF0 := by decide

theorem test_nor :
    after (start 0x01095027 [(8, 0xF0F0F0F0), (9, 0xFF00FF00)]) (·.reg 10) = some 0x000F000F := by decide

theorem test_slt_is_signed :
    after (start 0x0109502A [(8, 0x80000000), (9, 0x7FFFFFFF)]) (·.reg 10) = some 1 := by decide

theorem test_slt_equal : after (start 0x0109502A [(8, 5), (9, 5), (10, 7)]) (·.reg 10) = some 0 := by decide

theorem test_beq_taken : after (start 0x11090003 [(8, 4), (9, 4)]) (·.pc) = some 0x0040000C := by decide

theorem test_beq_not_taken : after (start 0x11090003 [(8, 4), (9, 5)]) (·.pc) = some 0x00400004 := by decide

theorem test_bne_backwards : after (start 0x1509FFFF [(8, 1), (9, 2)]) (·.pc) = some 0x003FFFFC := by decide

theorem test_bne_not_taken : after (start 0x1509FFFF [(8, 1), (9, 1)]) (·.pc) = some 0x00400004 := by decide

theorem test_blez :
    after (start 0x19000002 [(8, 0x80000000)]) (·.pc) = some 0x00400008 ∧
    after (start 0x19000002 []) (·.pc) = some 0x00400008 ∧
    after (start 0x19000002 [(8, 1)]) (·.pc) = some 0x00400004 := by decide

theorem test_bgtz :
    after (start 0x1D000002 [(8, 0x80000000)]) (·.pc) = some 0x00400004 ∧
    after (start 0x1D000002 []) (·.pc) = some 0x00400004 ∧
    after (start 0x1D000002 [(8, 1)]) (·.pc) = some 0x00400008 := by decide

theorem test_bltz :
    after (start 0x05000002 [(8, 0xFFFFFFFF)]) (·.pc) = some 0x00400008 ∧
    after (start 0x05000002 []) (·.pc) = some 0x00400004 := by decide

theorem test_bgez :
    after (start 0x05010002 [(8, 0xFFFFFFFF)]) (·.pc) = some 0x00400004 ∧
    after (start 0x05010002 []) (·.pc) = some 0x00400008 := by decide

/-- The region is that of the jump's own address, in the last word of region 0. -/
theorem test_j_region :
    (nextOf (exec (.j 0x0100008) { State.reset with pc := 0x0FFFFFFC })).map (·.pc) =
      some 0x00400020 := by decide

theorem test_jal : after (start 0x0C100040 []) (fun t => (t.pc, t.reg 31)) =
    some (0x00400100, 0x00400004) := by decide

theorem test_jal_highest_target : after (start 0x0FFFFFFF []) (·.pc) = some 0x0FFFFFFC := by decide

theorem test_addi_wraps : after (start 0x21090001 [(8, 0x7FFFFFFF)]) (·.reg 9) = some 0x80000000 := by
  decide

theorem test_addi_reads_register_zero : after (start 0x2002000A [(0, 5)]) (·.reg 2) = some 15 := by decide

theorem test_addiu_sign_extends : after (start 0x25098000 []) (·.reg 9) = some 0xFFFF8000 := by decide

theorem test_slti :
    after (start 0x29098000 [(8, 0xFFFF7FFF)]) (·.reg 9) = some 1 ∧
    after (start 0x29098000 [(8, 0xFFFF8000), (9, 7)]) (·.reg 9) = some 0 := by decide

theorem test_andi_zero_extends : after (start 0x3109FFFF [(8, 0xFFFFFFFF)]) (·.reg 9) = some 0x0000FFFF := by
  decide

theorem test_ori_zero_extends : after (start 0x35098000 [(8, 0x00010000)]) (·.reg 9) = some 0x00018000 := by
  decide

theorem test_xori : after (start 0x3909FFFF [(8, 0x0000FF00)]) (·.reg 9) = some 0x000000FF := by decide

theorem test_lui_ignores_rs : after (start 0x3D091234 [(8, 0xFFFFFFFF)]) (·.reg 9) = some 0x12340000 := by
  decide

theorem test_lb_sign_extends :
    after (withData (start 0x81090000 [(8, 0x10010000)]) 0x10010000 0x123456F0) (·.reg 9) =
      some 0xFFFFFFF0 := by decide

theorem test_lb_unaligned :
    after (inBytewise (withData (start 0x81090001 [(8, 0x10010000)]) 0x10010000 0x1234567F)) (·.reg 9) =
      some 0x00000056 ∧
    stopOf (step (start 0x81090001 [(8, 0x10010000)])) = some .misalignedAccess := by decide

theorem test_lh_sign_extends :
    after (withData (start 0x85090004 [(8, 0x10010000)]) 0x10010004 0x00018000) (·.reg 9) =
      some 0xFFFF8000 := by decide

theorem test_lh_unaligned :
    after (inBytewise (withData (start 0x85090002 [(8, 0x10010000)]) 0x10010000 0x8001FFFF)) (·.reg 9) =
      some 0xFFFF8001 := by decide

theorem test_lw_rt_is_rs :
    after (withData (start 0x8D080000 [(8, 0x10010000)]) 0x10010000 0x12345678) (·.reg 8) =
      some 0x12345678 := by decide

theorem test_lw_misaligned_stops :
    stopOf (step (start 0x8D090002 [(8, 0x10010000)])) = some .misalignedAccess := by decide

theorem test_sb :
    after (withData (start 0xA1090000 [(8, 0x10010000), (9, 0xAABBCCDD)]) 0x10010000 0x11223344)
      (wordOf · 0x10010000) = some (some 0x112233DD) := by decide

theorem test_sb_unaligned :
    after (inBytewise
      (withData (start 0xA1090003 [(8, 0x10010000), (9, 0xAABBCCDD)]) 0x10010000 0x11223344))
      (wordOf · 0x10010000) = some (some 0xDD223344) := by decide

theorem test_sh :
    after (withData (start 0xA5090000 [(8, 0x10010000), (9, 0xAABBCCDD)]) 0x10010000 0x11223344)
      (wordOf · 0x10010000) = some (some 0x1122CCDD) := by decide

/-- Lane 2 of the word, by R136. -/
theorem test_sh_unaligned :
    (nextOf (exec (.sh 9 8 2) (inBytewise
      (withData (start 0 [(8, 0x10010000), (9, 0xAABBCCDD)]) 0x10010000 0x11223344)))).map
      (wordOf · 0x10010000) = some (some 0xCCDD3344) := by decide

/-- The bytes of S5: DD CC BB AA. -/
theorem test_sw_is_little_endian :
    after (start 0xAD090008 [(8, 0x10010000), (9, 0xAABBCCDD)])
      (fun t => (t.byteAt 0x10010008, t.byteAt 0x10010009, t.byteAt 0x1001000A, t.byteAt 0x1001000B)) =
      some (0xDD, 0xCC, 0xBB, 0xAA) := by decide

theorem test_sw_outside_is_dropped : after (start 0xAC090010 [(9, 5)]) (wordOf · 0x10) = some (some 0) := by
  decide

/-! ## The step -/

theorem test_unimplemented_word :
    after (start 0x0000682B [(13, 7)]) (fun t => (t.reg 13, t.pc, t.icount)) =
      some (7, 0x00400004, 1) ∧
    diagnostic (start 0x0000682B []) = some (.unimplemented 0x00400000 0x0000682B) := by decide

theorem test_fetch_outside_reads_zero :
    after { State.reset with pc := 0 } (fun t => (t.pc, t.icount)) = some (4, 1) := by decide

theorem test_fetch_misaligned_stops :
    stopOf (step { State.reset with pc := 0x00400002 }) = some .misalignedAccess := by decide

theorem test_halted_step : after (halted (start 0x20090005 [])) (fun t => (t.reg 9, t.icount)) =
    some (0, 0) := by decide

theorem test_faulted_step_stays :
    let s := hostStep (start 0x8D090002 [(8, 0x10010000)])
    s.fault = some .misalignedAccess ∧ s.icount = 0 ∧ stopOf (step s) = some .misalignedAccess := by decide

/-! ## Host operations and the disassembler -/

theorem test_load_program :
    let s := loadProgram { State.reset with pc := 8, icount := 5, run := false } [0x20090005, 0x0000000C]
    s.pc = 0x00400000 ∧ s.icount = 0 ∧ s.run = true ∧ wordOf s 0x00400000 = some 0x20090005 ∧
    wordOf s 0x00400004 = some 0x0000000C ∧ wordOf s 0x00400008 = some 0 := by decide

theorem test_host_access :
    (hostWriteWord State.reset 0x10010010 0x01234567).toOption.map (wordOf · 0x10010010) =
      some (some 0x01234567) ∧
    (hostWriteWord State.reset 0x10 5).toOption.map (wordOf · 0x10) = some (some 0) ∧
    errorOf (hostReadWord State.reset 0x10010001) = some (.misalignedAddress 0x10010001) ∧
    errorOf (hostWriteWord State.reset 0x10010002 1) = some (.misalignedAddress 0x10010002) := by decide

theorem test_set_register :
    (setRegister State.reset 0 7).toOption.map (·.reg 0) = some 7 ∧
    errorOf (setRegister State.reset 32 1) = some (.invalidRegisterIndex 32) := by decide

/-- A run of two instructions that halts: `addi $2, $0, 10`, `syscall`. -/
theorem test_run_to_completion :
    runToCompletion 3 (loadProgram State.reset [0x2002000A, 0x0000000C]) =
      .halted (runFor 2 (loadProgram State.reset [0x2002000A, 0x0000000C])) ∧
    isHalted (runFor 2 (loadProgram State.reset [0x2002000A, 0x0000000C])) = true := by decide

theorem test_disassemble_1 :
    disassembleWord 0 0x20090005 = "addi $9, $0, 5" ∧ disassembleWord 0 0x00000000 = "sll $0, $0, 0" ∧
    disassembleWord 0 0x01095020 = "add $10, $8, $9" ∧ disassembleWord 0 0x0100F809 = "jalr $31, $8" ∧
    disassembleWord 0 0x0000000C = "syscall" ∧ disassembleWord 0 0x0109001A = "div $8, $9" := by decide

theorem test_disassemble_2 :
    disassembleWord 0x00400010 0x1500FFFE = "bne $8, $0, 0x00400008" ∧
    disassembleWord 0x00400000 0x05010002 = "bgez $8, 0x00400008" ∧
    disassembleWord 0x00400000 0x0C100040 = "jal 0x00400100" ∧
    disassembleWord 0 0x3109FFFF = "andi $9, $8, 0xffff" ∧
    disassembleWord 0 0x3C091001 = "lui $9, 0x1001" ∧
    disassembleWord 0 0x8D09FFFC = "lw $9, -4($8)" ∧
    disassembleWord 0 0xFC000000 = ".word 0xfc000000" := by decide

/-! ## Witnesses

For each claim of Obligations.lean that has hypotheses, a concrete state and operands that meet them
together, for each clause, at a boundary of its range where it has one. -/

/-- A state in mid-run, with data: `sw $9, 8($8)` at the PC. -/
def sample : State :=
  withData (start 0xAD090008 [(2, 10), (8, 0x10010000), (9, 0xAABBCCDD)]) 0x10010000 0x11223344

theorem sample_inv : sample.Inv := ⟨by decide, by decide, by decide⟩

theorem sample_inv_bytewise : (inBytewise sample).Inv := ⟨by decide, by decide, by decide⟩

/-- `sample` with register 8 at the address given. -/
def based (a : Word) : State :=
  sample.setReg 8 a

theorem based_inv (a : Word) : (based a).Inv :=
  ⟨sample_inv.config, sample_inv.canonical, sample_inv.inRegions⟩

theorem based_inv_bytewise (a : Word) : (inBytewise (based a)).Inv :=
  ⟨sample_inv_bytewise.config, sample_inv_bytewise.canonical, sample_inv_bytewise.inRegions⟩

/-! ### Encoding -/

/-- DecodeFollowsTheOpcodeTable, its three hypotheses. -/
theorem witness_DecodeFollowsTheOpcodeTable :
    decoded 0x010951E0 = some (.add 10 8 9) ∧
    0x010951E0#32 &&& (opcodeRow (.add 0 0 0)).mask = (opcodeRow (.add 0 0 0)).pattern ∧
    errorOf (decode 0x05020002) = some (.unimplementedRegimm 2) := by decide

theorem witness_BytesDecodeLittleEndian : [0x20#8, 0x50#8, 0x09#8].length < 4 := by decide

/-! ### The step -/

theorem witness_StepRunsTheDecodedInstruction :
    let s := sample
    s.config.wf = true ∧ s.fault = none ∧ s.run = true ∧ aligned s.pc = true ∧
    (decodeBytes [s.byteAt s.pc.toNat, s.byteAt (s.pc.toNat + 1), s.byteAt (s.pc.toNat + 2),
      s.byteAt (s.pc.toNat + 3)]).toOption = some (.sw 9 8 8, []) := by decide

theorem witness_UnimplementedWordIsNoOp :
    let s := start 0x0000682B []
    s.fault = none ∧ s.run = true ∧ (memRead s s.pc).toOption = some 0x0000682B ∧
    errorOf (decode 0x0000682B) = some (.unimplementedFunct 0x2B) := by decide

theorem witness_HaltedCoreHasNoStep : (halted sample).fault = none ∧ (halted sample).run = false := by
  decide

theorem witness_ModelFaultIsStickyUntilReset :
    stopOf (step (start 0x8D090002 [(8, 0x10010000)])) = some .misalignedAccess ∧
    stopOf (step (hostStep (start 0x8D090002 [(8, 0x10010000)]))) = some .misalignedAccess ∧
    (setRegister (hostStep (start 0x8D090002 [(8, 0x10010000)])) 31 7).toOption.map (·.fault) =
      some (some .misalignedAccess) ∧
    (hostWriteWord (hostStep (start 0x8D090002 [(8, 0x10010000)])) 0x10010000 7).toOption.map (·.fault) =
      some (some .misalignedAccess) := by decide

/-- InstructionsFaultExactlyWhereTheSpecSays and StepFaultsExactlyWhereTheSpecSays: each form that can
stop, where it stops and where it does not. -/
theorem witness_faultOf :
    faultOf sample (.lw 9 8 4) = none ∧ faultOf sample (.lw 9 8 2) = some .misalignedAccess ∧
    faultOf sample (.sw 9 8 4) = none ∧ faultOf sample (.sw 9 8 1) = some .misalignedAccess ∧
    faultOf sample (.lb 9 8 3) = some .misalignedAccess ∧ faultOf (inBytewise sample) (.lb 9 8 3) = none ∧
    faultOf sample (.sh 9 8 2) = some .misalignedAccess ∧ faultOf (inBytewise sample) (.sh 9 8 2) = none ∧
    faultOf (inBytewise sample) (.sh 9 8 1) = some .misalignedAccess := by decide

theorem witness_faultOf_div :
    let s := setRegs sample [(8, 0x80000000), (9, 0xFFFFFFFF)]
    faultOf (inDivFault s) (.div 8 9) = some .divOverflow ∧ faultOf s (.div 8 9) = none ∧
    faultOf (inDivFault s) (.div 9 9) = none ∧ faultOf s (.divu 8 9) = none := by decide

/-- The three ways a step stops: an old fault, a misaligned fetch, the instruction. -/
theorem witness_StepFaultsExactlyWhereTheSpecSays :
    { sample with fault := some .divOverflow }.fault = some .divOverflow ∧
    aligned { sample with pc := 0x00400002 }.pc = false ∧
    (memRead (start 0x8D090002 [(8, 0x10010000)]) 0x00400000).toOption = some 0x8D090002 ∧
    faultOf (start 0x8D090002 [(8, 0x10010000)]) (.lw 9 8 2) = some .misalignedAccess := by decide

/-! ### Instructions -/

/-- ArithmeticShift: each alternative of the first clause alone, and the second clause. -/
theorem witness_ArithmeticShift :
    (sample.config.sraMode = .arithmetic ∧ (sample.reg 9).toInt < 0) ∧
    ((inFaithful sample).config.sraMode = .faithful ∧ 0 ≤ ((inFaithful sample).reg 8).toInt) ∧
    ((inFaithful sample).config.sraMode = .faithful ∧ ((inFaithful sample).reg 9).toInt < 0 ∧
      (31#5) ≠ 0) := by decide

theorem witness_SyscallHaltsExactlyOnTen :
    sample.reg 2 = 0x0000000A ∧ (sample.setReg 2 0x1000000A).reg 2 ≠ 0x0000000A ∧
    (0x03FFFFCC#32).extractLsb' 26 6 = 0#6 ∧ (0x03FFFFCC#32).extractLsb' 0 6 = 0x0C#6 := by decide

/-- UnsignedDivision, SignedDivision, DivisionByZeroLeavesHiAndLo. -/
theorem witness_division :
    sample.reg 8 ≠ 0 ∧ ¬ (sample.reg 9 = 0x80000000 ∧ sample.reg 8 = 0xFFFFFFFF) ∧ sample.reg 0 = 0 := by
  decide

/-- SignedDivision at the edges of the case it leaves out. -/
theorem witness_SignedDivision_edges :
    let s := setRegs sample [(8, 0x80000000), (9, 0xFFFFFFFF)]
    (s.reg 8 ≠ 0 ∧ ¬ (s.reg 8 = 0x80000000 ∧ s.reg 8 = 0xFFFFFFFF)) ∧
    (s.reg 9 ≠ 0 ∧ ¬ (s.reg 9 = 0x80000000 ∧ s.reg 9 = 0xFFFFFFFF)) := by decide

theorem witness_SignedDivisionOverflow :
    let s := setRegs sample [(8, 0x80000000), (9, 0xFFFFFFFF)]
    s.reg 8 = 0x80000000 ∧ s.reg 9 = 0xFFFFFFFF ∧ s.config.divOvf = .pair 0x80000000 0 ∧
    (inDivFault s).reg 8 = 0x80000000 ∧ (inDivFault s).reg 9 = 0xFFFFFFFF ∧
    (inDivFault s).config.divOvf = .fault := by decide

theorem witness_BranchesOnSignInBothModes :
    sample.config.branchMode = .corrected ∧ (inFaithful sample).config.branchMode = .faithful := by decide

theorem witness_AddImmediate : (0x20090005#32).extractLsb' 26 6 = 0x08#6 := by decide

/-- LoadWord and StoreWord: the last word of a region, the highest address of all, and misaligned. -/
theorem witness_word_access :
    aligned (effectiveAddress (based 0x1001FFFC) 8 0) = true ∧
    aligned (effectiveAddress (based 0) 8 0xFFFC) = true ∧
    aligned (effectiveAddress (based 0x1001FFFC) 8 3) = false ∧
    (based 0x1001FFFC).config.wf = true := by decide

/-- SubwordLoads and SubwordStores, clause 1: aligned in the fault mode, and lane 3 in bytewise mode. -/
theorem witness_subword_byte :
    aligned (effectiveAddress (based 0x1001FFFC) 8 0) = true ∧
    aligned (effectiveAddress (inBytewise (based 0x1001FFFC)) 8 3) = false ∧
    (inBytewise (based 0x1001FFFC)).config.subwordUnaligned = .bytewise ∧
    (inBytewise (based 0x1001FFFC)).config.wf = true := by decide

/-- Clauses 2, 3 and 4: an even address in bytewise mode, an unaligned one in the fault mode, and an odd
one in both. -/
theorem witness_subword_half :
    (effectiveAddress (inBytewise (based 0x1001FFFC)) 8 2).toNat % 2 = 0 ∧
    aligned (effectiveAddress (inBytewise (based 0x1001FFFC)) 8 2) = false ∧
    (aligned (effectiveAddress (based 0x1001FFFC) 8 2) = false ∧
      (based 0x1001FFFC).config.subwordUnaligned = .fault) ∧
    (effectiveAddress (based 0x1001FFFC) 8 3).toNat % 2 = 1 ∧
    (effectiveAddress (inBytewise (based 0x1001FFFC)) 8 1).toNat % 2 = 1 := by decide

theorem witness_StoreThenLoadYieldsTheValue :
    aligned (effectiveAddress (based 0x1001FFFC) 8 0) = true ∧
    mapped (based 0x1001FFFC).config (effectiveAddress (based 0x1001FFFC) 8 0).toNat = true := by decide

/-! ### Memory -/

/-- OutOfRegionReadsZeroDropsWrites, and the second clause of WordWrittenIsWordRead: the first word
past a region and the highest word. -/
theorem witness_out_of_region :
    (aligned 0x10020000 = true ∧ mapped sample.config (0x10020000#32).toNat = false) ∧
    (aligned 0xFFFFFFFC = true ∧ mapped sample.config (0xFFFFFFFC#32).toNat = false) := by decide

theorem witness_WordWrittenIsWordRead :
    (aligned 0x10010000 = true ∧ mapped sample.config (0x10010000#32).toNat = true) ∧
    (aligned 0x1001FFFC = true ∧ mapped sample.config (0x1001FFFC#32).toNat = true) := by decide

/-- HostAccessesWholeAlignedWords: the last word of a region, the first word past it, an address with an
odd last bit. -/
theorem witness_HostAccessesWholeAlignedWords :
    (aligned 0x1001FFFC = true ∧ mapped sample.config ((0x1001FFFC#32).toNat + 3) = true) ∧
    (aligned 0x10020000 = true ∧ mapped sample.config (0x10020000#32).toNat = false) ∧
    aligned 0x1001FFFF = false := by decide

/-- ReadSeesTheLatestWrite: two writes to the address read, one next to it. -/
theorem witness_ReadSeesTheLatestWrite :
    aligned 0x10010000 = true ∧ mapped sample.config (0x10010000#32).toNat = true ∧
    latestWrite [(0x10010000#32, 1#32), (0x10010004#32, 2#32), (0x10010000#32, 3#32)] 0x10010000 =
      some 3 := by decide

theorem witness_ReadSeesTheLatestWrite_aligned :
    ∀ w ∈ [(0x10010000#32, 1#32), (0x10010004#32, 2#32), (0x10010000#32, 3#32)], aligned w.1 = true := by
  simp [aligned]

theorem witness_StoredWordIsFetchedNext :
    aligned (based 0x00400004).pc = true ∧
    effectiveAddress (based 0x00400004) 8 0 = (based 0x00400004).pc + 4 ∧
    mapped (based 0x00400004).config ((based 0x00400004).pc + 4).toNat = true := by decide

/-! ### Rules over all instructions -/

/-- RegisterZeroIsOrdinary: an instruction that names no register of its own, with register 0 as
destination and as source; SYSCALL and JAL with a register they do not use. -/
theorem witness_RegisterZeroIsOrdinary :
    fixedRegister (.add 0 0 9) ≠ some 31 ∧ renameRegs (swapZero 31) (.add 0 0 9) = .add 31 31 9 ∧
    fixedRegister .syscall ≠ some 31 ∧ fixedRegister (.jal 0) ≠ some 2 ∧
    (sample.swapZero 9).reg 0 = 0xAABBCCDD ∧ (sample.swapZero 9).reg 9 = 0 := by decide

/-- A next state of `exec` on an instruction with a destination, on a store, on the halting SYSCALL, on
one that writes HI and LO, and on one that does none of these. -/
theorem witness_exec_next :
    (nextOf (exec (.add 10 8 9) sample)).isSome = true ∧ destination (.add 10 8 9) ≠ some 0 ∧
    (nextOf (exec (.sw 9 8 8) sample)).isSome = true ∧
    storeRange sample (.sw 9 8 8) = some (0x10010008, 4) ∧
    (nextOf (exec .syscall sample)).isSome = true ∧ sample.reg 2 = 0x0000000A ∧
    (nextOf (exec (.mult 8 9) sample)).isSome = true ∧ mayWriteHi (.add 10 8 9) = false ∧
    storeRange sample (.mult 8 9) = none ∧ mayWritePc (.mult 8 9) = false := by decide

/-- A next state of `step` that goes on running, from an aligned PC, with an aligned PC after it. -/
theorem witness_step_next :
    after sample (fun t => (t.run, aligned t.pc)) = some (true, true) ∧ aligned sample.pc = true := by decide

/-- OnlyRegisterJumpsMisalignThePc: the other outcome. -/
theorem witness_OnlyRegisterJumpsMisalignThePc :
    after (start 0x01000008 [(8, 0x00400102)]) (aligned ·.pc) = some false ∧
    aligned (start 0x01000008 [(8, 0x00400102)]).pc = true ∧
    decoded 0x01000008 = some (.jr 8) ∧ jumpsToRegister (.jr 8) = true := by decide

/-! ### The host -/

/-- HostOperationsKeepInvariant and HostWritesRegisters. -/
theorem witness_host :
    (setRegister sample 31 7).toOption.map (·.reg 31) = some 7 ∧
    errorOf (setRegister sample 32 7) = some (.invalidRegisterIndex 32) ∧
    ((hostWriteWord sample 0x1001FFFC 7).toOption.isSome = true) := by decide

/-- ResetIsDeterministic: two states that differ in everything a run changes. -/
theorem witness_ResetIsDeterministic :
    sample.config = State.reset.config ∧ sample.image = State.reset.image ∧ sample.mem ≠ State.reset.mem ∧
    sample.reg 8 ≠ State.reset.reg 8 := by decide

/-- LoadProgramStoresTheImage: its two words, and a word past the image. -/
theorem witness_LoadProgramStoresTheImage :
    sample.config.wf = true ∧ 4 * [0x2002000A#32, 0x0000000C#32].length ≤ 2 ^ 32 ∧
    mapped sample.config (imageAddress sample.config 1).toNat = true ∧ aligned 0x00400008 = true ∧
    (∀ k < [0x2002000A#32, 0x0000000C#32].length, imageAddress sample.config k ≠ 0x00400008) := by decide

/-- BatchRunStepsUntilItStops: a core that cannot step, one that makes each of its steps, one whose last
step faults, and one that stops early. -/
theorem witness_BatchRunStepsUntilItStops :
    canStep (halted sample) = false ∧
    (∀ k < 2, canStep (runFor k sample) = true) ∧
    (∀ k < 1, canStep (runFor k (start 0x8D090002 [(8, 0x10010000)])) = true) ∧
    stopOf (step (start 0x8D090002 [(8, 0x10010000)])) = some .misalignedAccess ∧
    canStep (runFor 1 (start 0x0000000C [(2, 10)])) = false := by decide

theorem witness_BatchRunCountsItsSteps : canStep (runFor 2 sample) = true := by decide

theorem witness_RunEndsByTheHaltingSyscall :
    canStep (start 0x0000000C [(2, 10)]) = true ∧
    runToCompletion 5 (start 0x0000000C [(2, 10)]) = .halted (hostStep (start 0x0000000C [(2, 10)])) := by
  decide

theorem witness_DisassemblerInLockStep :
    errorOf (decode 0xFC000000) = some (.unimplementedOpcode 0x3F) ∧ decoded 0x0000000C = some .syscall := by
  decide

end Sys2Proof.Tests
end

