-- ==== Sys2Proof/Proofs/Syscall.lean ====
section
/-! SUPPORT. The proof of the statement about SYSCALL (spec/43_syscall.md). -/

namespace Sys2Proof

/-- Under opcode 0 the funct field alone selects the instruction (R64). -/
theorem decode_eq_selectFunct {w : Word} (hop : w.extractLsb' 26 6 = 0#6) :
    decode w = selectFunct (fieldsOf w) := by
  have hf : (fieldsOf w).opcode = 0#6 := hop
  simp [decode, select, hf]

/-- The code field, bits 25:6, takes no part in selecting SYSCALL (R67, R93). -/
theorem decode_eq_syscall {w : Word} (hop : w.extractLsb' 26 6 = 0#6)
    (hfunct : w.extractLsb' 0 6 = 0x0C#6) : decode w = .ok .syscall := by
  have hf : (fieldsOf w).funct = 0x0C#6 := hfunct
  rw [decode_eq_selectFunct hop]
  simp [selectFunct, hf]

namespace Machine

/-- A commit with a new RunFlag changes only the RunFlag, the PC and the count. -/
theorem onlyGoesTo_setRun_commitTo (s : State) (r : Bool) (pc' : Word) :
    OnlyGoesTo pc' r s ({ s with run := r }.commitTo pc') where
  regs    := fun _ => rfl
  hi      := rfl
  lo      := rfl
  run     := rfl
  memory  := fun _ => rfl
  keeps   := ⟨rfl, rfl, rfl⟩
  commits := commits_commitTo pc' rfl

/-- SYSCALL always commits, and the comparison of `x[2]` with the halt code decides the RunFlag alone. -/
theorem exec_syscall_onlyGoesTo (s : State) :
    ∃ t, exec .syscall s = .next t ∧
      OnlyGoesTo (s.pc + 4) (if s.reg haltRegister = haltCode then false else s.run) s t :=
  ⟨_, rfl, onlyGoesTo_setRun_commitTo s _ (s.pc + 4)⟩

end Machine

open Machine in
/-- Settles O15: the RunFlag after SYSCALL is one conditional on `x[2]`, taken in each direction; and
the decoder reads only opcode and funct. -/
theorem syscallHaltsExactlyOnTen : Obligations.SyscallHaltsExactlyOnTen := by
  unfold Obligations.SyscallHaltsExactlyOnTen
  refine ⟨?halts, ?goesOn, fun w hop hfunct => decode_eq_syscall hop hfunct⟩
  case halts =>
    intro s h2
    have hcode : s.reg haltRegister = haltCode := h2
    simpa only [if_pos hcode] using exec_syscall_onlyGoesTo s
  case goesOn =>
    intro s h2
    have hcode : s.reg haltRegister ≠ haltCode := h2
    simpa only [if_neg hcode] using exec_syscall_onlyGoesTo s

end Sys2Proof
end

section
/-! SUPPORT. The proof of the statement about ADDI (spec/48_alu_imm.md). -/

namespace Sys2Proof

/-- Opcode 0x08 alone selects ADDI; the operands are the I-format fields (R56, R64). -/
theorem decode_eq_addi {w : Word} (hop : w.extractLsb' 26 6 = 0x08#6) :
    decode w = .ok (.addi (fieldsOf w).rt (fieldsOf w).rs (fieldsOf w).imm16) := by
  have hf : (fieldsOf w).opcode = 0x08#6 := hop
  simp [decode, select, hf]

namespace Machine

/-- R59, R123: adding the sign-extended immediate is integer addition of the signed immediate,
modulo 2^32. -/
theorem add_signExtend16_eq_ofInt (v : Word) (imm : Imm16) :
    v + signExtend16 imm = BitVec.ofInt 32 (v.toNat + imm.toInt) := by
  rw [signExtend16_eq_ofInt, BitVec.ofInt_add, BitVec.ofInt_natCast, BitVec.ofNat_toNat,
    BitVec.setWidth_eq]

/-- R123: ADDI only writes rt, with the sum and without a trap. -/
theorem exec_addi_eq_writeReg (rt rs : RegIndex) (imm : Imm16) (s : State) :
    exec (.addi rt rs imm) s =
      writeReg s rt (BitVec.ofInt 32 ((s.reg rs).toNat + imm.toInt)) := by
  rw [← add_signExtend16_eq_ofInt]
  rfl

/-- R123, R124: ADDI and ADDIU have one meaning. -/
theorem exec_addiu_eq_exec_addi (rt rs : RegIndex) (imm : Imm16) (s : State) :
    exec (.addiu rt rs imm) s = exec (.addi rt rs imm) s := rfl

end Machine

open Machine in
/-- Settles O28: ADDI and ADDIU are one register write of the integer sum modulo 2^32, and the
opcode alone selects ADDI. -/
theorem addImmediate : Obligations.AddImmediate := by
  unfold Obligations.AddImmediate
  refine ⟨fun rt rs imm s => ?writes, fun w hop => decode_eq_addi hop⟩
  case writes =>
    rw [exec_addiu_eq_exec_addi, exec_addi_eq_writeReg]
    obtain ⟨t, ht, hw⟩ := writeReg_writesReg s rt (BitVec.ofInt 32 ((s.reg rs).toNat + imm.toInt))
    exact ⟨t, ht, ht, hw⟩

end Sys2Proof
end

section
/-! SUPPORT. The proof of the statement about the host's register writes (spec/60_exceptions.md R157,
R158). -/

namespace Sys2Proof

/-- The boundary check takes every index below 32, register 0 included (R157). -/
theorem checkRegIndex_of_lt {n : Nat} (h : n < 32) : checkRegIndex n = some ⟨n, h⟩ :=
  dif_pos h

/-- The boundary check takes no other index (R157). -/
theorem checkRegIndex_of_le {n : Nat} (h : 32 ≤ n) : checkRegIndex n = none :=
  dif_neg (Nat.not_lt.mpr h)

namespace Machine

/-- An index that passes the check is one register write and no more (R157). -/
theorem setRegister_of_lt (s : State) (v : Word) {n : Nat} (h : n < 32) :
    setRegister s n v = .ok (s.setReg ⟨n, h⟩ v) := by
  simp only [setRegister, checkRegIndex_of_lt h]

/-- Any other index is refused under its own number (R157). -/
theorem setRegister_of_le (s : State) (v : Word) {n : Nat} (h : 32 ≤ n) :
    setRegister s n v = .error (.invalidRegisterIndex n) := by
  simp only [setRegister, checkRegIndex_of_le h]

end Machine

open Machine in
/-- Settles O56: below 32 `setRegister` is one `setReg`, whose frame the register laws give; from 32 on
the boundary check refuses; `setHI` and `setLO` are updates of one field. -/
theorem hostWritesRegisters : Obligations.HostWritesRegisters := by
  unfold Obligations.HostWritesRegisters
  intro s v
  refine ⟨fun n h => ?writes, fun n h => setRegister_of_le s v h, rfl, rfl⟩
  case writes =>
    have others : ∀ r : RegIndex, r.val ≠ n → (s.setReg ⟨n, h⟩ v).reg r = s.reg r :=
      fun r hr => State.reg_setReg_of_ne s v (Fin.ne_of_val_ne hr)
    exact ⟨_, setRegister_of_lt s v h, State.reg_setReg_self s ⟨n, h⟩ v, others, rfl⟩

end Sys2Proof
end

section
/-! SUPPORT. The proof of the statement about reset (spec/70_reset_and_hazards.md R163). -/

namespace Sys2Proof

namespace Machine

/-- The state in which reset begins to write the image: every field but the configuration and the
image has its initial value, so no field of a prior state is left to read (R162). -/
def State.cleared (config : Config) (image : List Word) : State where
  config := config
  pc     := config.textBase
  gpr    := config.initGpr
  hi     := config.initHi
  lo     := config.initLo
  run    := true
  icount := 0
  image  := image
  mem    := []
  fault  := none

/-- Reset reads the configuration and the image of the prior state, and nothing else of it (R163). -/
theorem hostReset_eq_loadImage_cleared (s : State) :
    hostReset s = loadImage (State.cleared s.config s.image) s.config.textBase s.image := rfl

end Machine

open Machine in
/-- Settles O51: reset writes the image into a state made of the configuration and the image alone. -/
theorem resetIsDeterministic : Obligations.ResetIsDeterministic := by
  unfold Obligations.ResetIsDeterministic
  intro s t hconfig himage
  calc hostReset s
      = loadImage (State.cleared s.config s.image) s.config.textBase s.image :=
        hostReset_eq_loadImage_cleared s
    _ = loadImage (State.cleared t.config t.image) t.config.textBase t.image := by
        rw [hconfig, himage]
    _ = hostReset t := (hostReset_eq_loadImage_cleared t).symm

end Sys2Proof
end

section
/-! SUPPORT. The proofs of the statements about the encoding (spec/30_encoding.md). -/

namespace Sys2Proof

/-! ## Fields in place

A word is the sum of its fields, each shifted to its place. -/

/-- The word that holds the bits `x` from bit `lo` on, and 0 elsewhere. -/
def fieldAt {n : Nat} (lo : Nat) (x : BitVec n) : Word :=
  x.setWidth 32 <<< lo

@[simp] theorem fieldAt_zero (n lo : Nat) : fieldAt lo (0#n) = 0#32 := by
  simp [fieldAt]

@[simp] theorem fieldAt_ofFin_zero (lo : Nat) : fieldAt lo (BitVec.ofFin (w := 5) 0) = 0#32 :=
  fieldAt_zero 5 lo

theorem getLsbD_fieldAt {n lo k : Nat} (x : BitVec n) (hk : k < 32) :
    (fieldAt lo x).getLsbD k = (decide (lo ≤ k) && x.getLsbD (k - lo)) := by
  simp only [fieldAt, BitVec.getLsbD_shiftLeft, BitVec.getLsbD_setWidth]
  grind

/-- Masking a word to one field leaves that field in its place. -/
theorem and_fieldAt_allOnes (w : Word) (lo n : Nat) :
    w &&& fieldAt lo (BitVec.allOnes n) = fieldAt lo (w.extractLsb' lo n) := by
  apply BitVec.eq_of_getLsbD_eq
  intro k hk
  simp only [BitVec.getLsbD_and, getLsbD_fieldAt _ hk, BitVec.getLsbD_allOnes,
    BitVec.getLsbD_extractLsb']
  grind

/-- The R-format as the sum of its fields (R55). -/
theorem encodeR_eq_or (rs rt rd : RegIndex) (shamt : Shamt) (funct : BitVec 6) :
    encodeR rs rt rd shamt funct =
      fieldAt 0 funct ||| (fieldAt 21 (BitVec.ofFin (w := 5) rs) |||
        (fieldAt 16 (BitVec.ofFin (w := 5) rt) ||| (fieldAt 11 (BitVec.ofFin (w := 5) rd) |||
          fieldAt 6 shamt))) := by
  apply BitVec.eq_of_getLsbD_eq
  intro k hk
  simp only [encodeR, BitVec.getLsbD_or, BitVec.getLsbD_append, getLsbD_fieldAt _ hk]
  grind

/-- The I-format as the sum of its fields (R56). -/
theorem encodeI_eq_or (opcode : BitVec 6) (rs rt : RegIndex) (imm : Imm16) :
    encodeI opcode rs rt imm =
      fieldAt 26 opcode ||| (fieldAt 21 (BitVec.ofFin (w := 5) rs) |||
        (fieldAt 16 (BitVec.ofFin (w := 5) rt) ||| fieldAt 0 imm)) := by
  apply BitVec.eq_of_getLsbD_eq
  intro k hk
  simp only [encodeI, BitVec.getLsbD_or, BitVec.getLsbD_append, getLsbD_fieldAt _ hk]
  grind

/-- The J-format as the sum of its fields (R57). -/
theorem encodeJ_eq_or (opcode : BitVec 6) (target : Target) :
    encodeJ opcode target = fieldAt 26 opcode ||| fieldAt 0 target := by
  apply BitVec.eq_of_getLsbD_eq
  intro k hk
  simp only [encodeJ, BitVec.getLsbD_or, BitVec.getLsbD_append, getLsbD_fieldAt _ hk]
  grind

/-! ## Masks take fields out of a word -/

theorem and_bitsRs (w : Word) :
    w &&& bitsRs = fieldAt 21 (BitVec.ofFin (w := 5) (fieldsOf w).rs) :=
  and_fieldAt_allOnes w 21 5

theorem and_bitsRt (w : Word) :
    w &&& bitsRt = fieldAt 16 (BitVec.ofFin (w := 5) (fieldsOf w).rt) :=
  and_fieldAt_allOnes w 16 5

theorem and_bitsRd (w : Word) :
    w &&& bitsRd = fieldAt 11 (BitVec.ofFin (w := 5) (fieldsOf w).rd) :=
  and_fieldAt_allOnes w 11 5

theorem and_bitsShamt (w : Word) : w &&& bitsShamt = fieldAt 6 (fieldsOf w).shamt :=
  and_fieldAt_allOnes w 6 5

theorem and_bitsImm16 (w : Word) : w &&& bitsImm16 = fieldAt 0 (fieldsOf w).imm16 :=
  and_fieldAt_allOnes w 0 16

theorem and_bitsTarget (w : Word) : w &&& bitsTarget = fieldAt 0 (fieldsOf w).target :=
  and_fieldAt_allOnes w 0 26

theorem and_maskOp (w : Word) : w &&& maskOp = fieldAt 26 (fieldsOf w).opcode :=
  and_fieldAt_allOnes w 26 6

theorem and_maskR (w : Word) :
    w &&& maskR = fieldAt 26 (fieldsOf w).opcode ||| fieldAt 0 (fieldsOf w).funct := by
  have hm : maskR = maskOp ||| fieldAt 0 (BitVec.allOnes 6) := by decide
  rw [hm, BitVec.and_or_distrib_left, and_maskOp, and_fieldAt_allOnes]
  rfl

theorem and_maskRegimm (w : Word) :
    w &&& maskRegimm =
      fieldAt 26 (fieldsOf w).opcode ||| fieldAt 16 (BitVec.ofFin (w := 5) (fieldsOf w).rt) := by
  have hm : maskRegimm = maskOp ||| bitsRt := by decide
  rw [hm, BitVec.and_or_distrib_left, and_maskOp, and_bitsRt]

/-- Two words agree under the R-format mask exactly when they agree on opcode and funct. -/
theorem and_maskR_eq_iff {w v : Word} :
    w &&& maskR = v &&& maskR ↔
      (fieldsOf w).opcode = (fieldsOf v).opcode ∧ (fieldsOf w).funct = (fieldsOf v).funct := by
  constructor
  · intro h
    exact ⟨extractLsb'_eq_of_and_eq h 26 6 (by decide), extractLsb'_eq_of_and_eq h 0 6 (by decide)⟩
  · rintro ⟨hop, hfunct⟩
    rw [and_maskR, and_maskR, hop, hfunct]

/-- Two words agree under the REGIMM mask exactly when they agree on opcode and rt. -/
theorem and_maskRegimm_eq_iff {w v : Word} :
    w &&& maskRegimm = v &&& maskRegimm ↔
      (fieldsOf w).opcode = (fieldsOf v).opcode ∧ (fieldsOf w).rt = (fieldsOf v).rt := by
  constructor
  · intro h
    exact ⟨extractLsb'_eq_of_and_eq h 26 6 (by decide),
      congrArg BitVec.toFin (extractLsb'_eq_of_and_eq h 16 5 (by decide))⟩
  · rintro ⟨hop, hrt⟩
    rw [and_maskRegimm, and_maskRegimm, hop, hrt]

/-- Two words agree under the I- and J-format mask exactly when they agree on the opcode. -/
theorem and_maskOp_eq_iff {w v : Word} :
    w &&& maskOp = v &&& maskOp ↔ (fieldsOf w).opcode = (fieldsOf v).opcode := by
  constructor
  · intro h
    exact extractLsb'_eq_of_and_eq h 26 6 (by decide)
  · intro hop
    rw [and_maskOp, and_maskOp, hop]

/-! ## The decoder on an encoded word -/

/-- The three formats, each selected by its own fields (R64). -/
theorem decode_encode (i : Instr) : decode (encode i) = .ok i := by
  cases i with
  | sll | srl | sra | jr | jalr | syscall | mfhi | mthi | mflo | mtlo | mult | multu | div | divu
  | add | addu | sub | subu | and | or | xor | nor | slt =>
    simp [encode, decode, select, selectFunct]
  | bltz | bgez => simp [encode, decode, select, selectRegimm]
  | beq | bne | blez | bgtz | j | jal | addi | addiu | slti | andi | ori | xori | lui
  | lb | lh | lw | sb | sh | sw => simp [encode, decode, select]

/-- Settles O1, format by format: the encoder's fields come back, and they select the instruction. -/
theorem decodeEncodeRoundTrip : Obligations.DecodeEncodeRoundTrip :=
  decode_encode

theorem encode_injective {i j : Instr} (h : encode i = encode j) : i = j := by
  have hij : (.ok i : Except DecodeReject Instr) = .ok j := by
    rw [← decode_encode i, ← decode_encode j, h]
  injection hij

/-! ## Rows of the opcode table and the fields of a word -/

/-- The word of an instruction matches the instruction's row. -/
theorem opcodeRow_selects_encode (i : Instr) : (opcodeRow i).selects (encode i) := by
  cases i with
  | sll | srl | sra | jr | jalr | syscall | mfhi | mthi | mflo | mtlo | mult | multu | div | divu
  | add | addu | sub | subu | and | or | xor | nor | slt => exact encodeR_and_maskR _ _ _ _ _
  | bltz | bgez => exact encodeI_and_maskRegimm _ _ _ _
  | j | jal => exact encodeJ_and_maskOp _ _
  | beq | bne | blez | bgtz | addi | addiu | slti | andi | ori | xori | lui
  | lb | lh | lw | sb | sh | sw => exact encodeI_and_maskOp _ _ _ _

/-- A word matches a row exactly when its selecting bits are those of the encoder's word. -/
theorem selects_iff {w : Word} {i : Instr} :
    (opcodeRow i).selects w ↔
      w &&& (opcodeRow i).mask = encode i &&& (opcodeRow i).mask := by
  rw [opcodeRow_selects_encode i]
  rfl

/-- The instruction of the same row whose operands are the fields given. -/
def withFields (f : Fields) : Instr → Instr
  | .sll _ _ _   => .sll f.rd f.rt f.shamt
  | .srl _ _ _   => .srl f.rd f.rt f.shamt
  | .sra _ _ _   => .sra f.rd f.rt f.shamt
  | .jr _        => .jr f.rs
  | .jalr _ _    => .jalr f.rd f.rs
  | .syscall     => .syscall
  | .mfhi _      => .mfhi f.rd
  | .mthi _      => .mthi f.rs
  | .mflo _      => .mflo f.rd
  | .mtlo _      => .mtlo f.rs
  | .mult _ _    => .mult f.rs f.rt
  | .multu _ _   => .multu f.rs f.rt
  | .div _ _     => .div f.rs f.rt
  | .divu _ _    => .divu f.rs f.rt
  | .add _ _ _   => .add f.rd f.rs f.rt
  | .addu _ _ _  => .addu f.rd f.rs f.rt
  | .sub _ _ _   => .sub f.rd f.rs f.rt
  | .subu _ _ _  => .subu f.rd f.rs f.rt
  | .and _ _ _   => .and f.rd f.rs f.rt
  | .or _ _ _    => .or f.rd f.rs f.rt
  | .xor _ _ _   => .xor f.rd f.rs f.rt
  | .nor _ _ _   => .nor f.rd f.rs f.rt
  | .slt _ _ _   => .slt f.rd f.rs f.rt
  | .bltz _ _    => .bltz f.rs f.imm16
  | .bgez _ _    => .bgez f.rs f.imm16
  | .beq _ _ _   => .beq f.rs f.rt f.imm16
  | .bne _ _ _   => .bne f.rs f.rt f.imm16
  | .blez _ _    => .blez f.rs f.imm16
  | .bgtz _ _    => .bgtz f.rs f.imm16
  | .j _         => .j f.target
  | .jal _       => .jal f.target
  | .addi _ _ _  => .addi f.rt f.rs f.imm16
  | .addiu _ _ _ => .addiu f.rt f.rs f.imm16
  | .slti _ _ _  => .slti f.rt f.rs f.imm16
  | .andi _ _ _  => .andi f.rt f.rs f.imm16
  | .ori _ _ _   => .ori f.rt f.rs f.imm16
  | .xori _ _ _  => .xori f.rt f.rs f.imm16
  | .lui _ _     => .lui f.rt f.imm16
  | .lb _ _ _    => .lb f.rt f.rs f.imm16
  | .lh _ _ _    => .lh f.rt f.rs f.imm16
  | .lw _ _ _    => .lw f.rt f.rs f.imm16
  | .sb _ _ _    => .sb f.rt f.rs f.imm16
  | .sh _ _ _    => .sh f.rt f.rs f.imm16
  | .sw _ _ _    => .sw f.rt f.rs f.imm16

/-- Other operands leave the row as it is. -/
theorem opcodeRow_withFields (f : Fields) (i : Instr) : opcodeRow (withFields f i) = opcodeRow i := by
  cases i <;> rfl

/-- A word that matches a row decodes to the instruction of that row with the word's operands (R64). -/
theorem decode_of_selects {w : Word} {i : Instr} (h : (opcodeRow i).selects w) :
    decode w = .ok (withFields (fieldsOf w) i) := by
  rw [selects_iff] at h
  cases i with
  | sll | srl | sra | jr | jalr | syscall | mfhi | mthi | mflo | mtlo | mult | multu | div | divu
  | add | addu | sub | subu | and | or | xor | nor | slt =>
    obtain ⟨hop, hfunct⟩ := and_maskR_eq_iff.mp h
    simp only [encode, fieldsOf_encodeR_opcode, fieldsOf_encodeR_funct] at hop hfunct
    simp [decode, select, selectFunct, hop, hfunct, withFields]
  | bltz | bgez =>
    obtain ⟨hop, hrt⟩ := and_maskRegimm_eq_iff.mp h
    simp only [encode, fieldsOf_encodeI_opcode, fieldsOf_encodeI_rt] at hop hrt
    simp [decode, select, selectRegimm, hop, hrt, withFields]
  | j | jal =>
    have hop := and_maskOp_eq_iff.mp h
    simp only [encode, fieldsOf_encodeJ_opcode] at hop
    simp [decode, select, hop, withFields]
  | beq | bne | blez | bgtz | addi | addiu | slti | andi | ori | xori | lui
  | lb | lh | lw | sb | sh | sw =>
    have hop := and_maskOp_eq_iff.mp h
    simp only [encode, fieldsOf_encodeI_opcode] at hop
    simp [decode, select, hop, withFields]

/-- The used bits of a REGIMM word are those of an I-format word (R56, R58). -/
theorem usedBits_regimm :
    maskRegimm ||| (bitsRs ||| bitsImm16) = maskOp ||| (bitsRs ||| (bitsRt ||| bitsImm16)) := by
  decide

/-- The used bits of a word that matches a row are the word of the row's instruction with the word's
operands (R67). -/
theorem encode_withFields_of_selects {w : Word} {i : Instr} (h : (opcodeRow i).selects w) :
    encode (withFields (fieldsOf w) i) = w &&& ((opcodeRow i).mask ||| (opcodeRow i).operands) := by
  rw [selects_iff] at h
  cases i with
  | sll | srl | sra | jr | jalr | syscall | mfhi | mthi | mflo | mtlo | mult | multu | div | divu
  | add | addu | sub | subu | and | or | xor | nor | slt =>
    obtain ⟨hop, hfunct⟩ := and_maskR_eq_iff.mp h
    simp only [encode, fieldsOf_encodeR_opcode, fieldsOf_encodeR_funct] at hop hfunct
    simp only [encode, withFields, opcodeRow, encodeR_eq_or, BitVec.and_or_distrib_left, and_maskR, hop,
      hfunct, and_bitsRs, and_bitsRt, and_bitsRd, and_bitsShamt, BitVec.ofNat_eq_ofNat, fieldAt_zero,
      fieldAt_ofFin_zero, BitVec.or_assoc, BitVec.zero_or, BitVec.or_zero]
  | bltz | bgez =>
    obtain ⟨hop, hrt⟩ := and_maskRegimm_eq_iff.mp h
    simp only [encode, fieldsOf_encodeI_opcode, fieldsOf_encodeI_rt] at hop hrt
    simp only [encode, withFields, opcodeRow, usedBits_regimm, encodeI_eq_or,
      BitVec.and_or_distrib_left, and_maskOp, hop, hrt, and_bitsRs, and_bitsRt, and_bitsImm16]
  | j | jal =>
    have hop := and_maskOp_eq_iff.mp h
    simp only [encode, fieldsOf_encodeJ_opcode] at hop
    simp only [encode, withFields, opcodeRow, encodeJ_eq_or, BitVec.and_or_distrib_left, and_maskOp, hop,
      and_bitsTarget]
  | beq | bne | blez | bgtz | addi | addiu | slti | andi | ori | xori | lui
  | lb | lh | lw | sb | sh | sw =>
    have hop := and_maskOp_eq_iff.mp h
    simp only [encode, fieldsOf_encodeI_opcode] at hop
    simp only [encode, withFields, opcodeRow, encodeI_eq_or, BitVec.and_or_distrib_left, and_maskOp, hop,
      and_bitsRs, and_bitsRt, and_bitsImm16, fieldAt_ofFin_zero, BitVec.or_assoc, BitVec.zero_or]

/-- Opcode 0: the funct that selects an instruction is the one of its row. -/
theorem selects_of_selectFunct {w : Word} {i : Instr} (hop : (fieldsOf w).opcode = 0)
    (h : selectFunct (fieldsOf w) = .ok i) : (opcodeRow i).selects w := by
  unfold selectFunct at h
  split at h <;> rename_i hfunct <;> cases h <;>
    exact selects_iff.mpr (and_maskR_eq_iff.mpr
      ⟨by simp [encode, hop], by simpa [encode] using BitVec.eq_of_toNat_eq hfunct⟩)

/-- Opcode 1: the rt that selects an instruction is the one of its row. -/
theorem selects_of_selectRegimm {w : Word} {i : Instr} (hop : (fieldsOf w).opcode = 1)
    (h : selectRegimm (fieldsOf w) = .ok i) : (opcodeRow i).selects w := by
  unfold selectRegimm at h
  split at h <;> rename_i hrt <;> cases h <;>
    exact selects_iff.mpr (and_maskRegimm_eq_iff.mpr
      ⟨by simp [encode, hop], by simpa [encode] using Fin.ext hrt⟩)

/-- A decoded word matches its instruction's row (R64, R65). -/
theorem selects_of_decode {w : Word} {i : Instr} (h : decode w = .ok i) : (opcodeRow i).selects w := by
  unfold decode select at h
  split at h <;> rename_i hop
  · exact selects_of_selectFunct (BitVec.eq_of_toNat_eq hop) h
  · exact selects_of_selectRegimm (BitVec.eq_of_toNat_eq hop) h
  all_goals
    cases h <;>
    exact selects_iff.mpr (and_maskOp_eq_iff.mpr
      (by simpa [encode] using BitVec.eq_of_toNat_eq hop))

/-- A word decodes to an instruction exactly when it matches the instruction's row and the instruction's
operands are the word's. -/
theorem decode_eq_ok_iff {w : Word} {i : Instr} :
    decode w = .ok i ↔ (opcodeRow i).selects w ∧ withFields (fieldsOf w) i = i := by
  constructor
  · intro h
    have hsel := selects_of_decode h
    rw [decode_of_selects hsel] at h
    exact ⟨hsel, by injection h⟩
  · rintro ⟨hsel, hi⟩
    rw [decode_of_selects hsel, hi]

/-- A word with an instruction's used bits matches the instruction's row. -/
theorem selects_of_used_bits {w : Word} {i : Instr}
    (h : w &&& ((opcodeRow i).mask ||| (opcodeRow i).operands) = encode i) : (opcodeRow i).selects w := by
  have hmask : ((opcodeRow i).mask ||| (opcodeRow i).operands) &&& (opcodeRow i).mask
      = (opcodeRow i).mask := by
    apply BitVec.eq_of_getLsbD_eq
    intro k _
    simp only [BitVec.getLsbD_and, BitVec.getLsbD_or]
    grind
  rw [selects_iff, ← h, BitVec.and_assoc, hmask]

/-- Settles O2: a word of the row decodes with its own operands, and those with the selecting bits are
the used bits; encoding is injective. -/
theorem decodeReadsExactlyTheUsedBits : Obligations.DecodeReadsExactlyTheUsedBits := by
  unfold Obligations.DecodeReadsExactlyTheUsedBits
  intro w i
  constructor
  · intro h
    obtain ⟨hsel, hi⟩ := decode_eq_ok_iff.mp h
    rw [← encode_withFields_of_selects hsel, hi]
  · intro h
    have hsel := selects_of_used_bits h
    have henc := (encode_withFields_of_selects hsel).trans h
    exact decode_eq_ok_iff.mpr ⟨hsel, encode_injective henc⟩

/-- Settles O3: a word that decodes matches its row, and a word that matches a row decodes to an
instruction of it; so a rejected word is one that matches none. -/
theorem decodeFollowsTheOpcodeTable : Obligations.DecodeFollowsTheOpcodeTable := by
  unfold Obligations.DecodeFollowsTheOpcodeTable
  refine ⟨fun w i h => selects_of_decode h,
    fun w i h => ⟨_, decode_of_selects h, opcodeRow_withFields _ i⟩, fun w => ⟨?_, fun hnone => ?_⟩⟩
  · rintro ⟨e, he⟩ i hsel
    rw [decode_of_selects hsel] at he
    cases he
  · cases hd : decode w with
    | error e => exact ⟨e, rfl⟩
    | ok i => exact absurd (selects_of_decode hd) (hnone i)

/-- Settles O4: the decoder is evaluated on each word. -/
theorem wordsFromTheSpecDecode : Obligations.WordsFromTheSpecDecode := by
  unfold Obligations.WordsFromTheSpecDecode
  refine ⟨?_, ?_, ?_, ?_, ?_, ?_, ?_, ?_, ?_, ?_, ?_⟩ <;> rfl

/-- Settles O5: the four bytes of a word make that word, and a list of fewer than four takes the second
branch. -/
theorem bytesDecodeLittleEndian : Obligations.BytesDecodeLittleEndian := by
  unfold Obligations.BytesDecodeLittleEndian
  constructor
  · intro w rest
    rw [decodeBytes, Machine.wordOfBytes_byteOfWord]
  · intro bytes hlen
    match bytes, hlen with
    | [], _ | [_], _ | [_, _], _ | [_, _, _], _ => rfl

/-! ## The disassembler (R69 to R72) -/

namespace Machine

/-- The text begins, and not with the dot of `.word`. -/
def beginsUndotted (t : String) : Bool :=
  t.toList.head?.any (· != '.')

/-- What is put after a text does not change how it begins. -/
theorem beginsUndotted_append {t : String} (u : String) (h : beginsUndotted t = true) :
    beginsUndotted (t ++ u) = true := by
  unfold beginsUndotted at h ⊢
  rw [String.toList_append]
  cases ht : t.toList with
  | nil => simp [ht] at h
  | cons c cs => simpa [ht] using h

theorem beginsUndotted_wordText (v : Word) : beginsUndotted (".word " ++ hexWord v) = false := by
  unfold beginsUndotted
  rw [String.toList_append]
  rfl

/-- Every instruction's text begins with its mnemonic (R71). -/
theorem beginsUndotted_instrText (a : Word) (i : Instr) : beginsUndotted (instrText a i) = true := by
  cases i <;>
  · simp only [instrText, textShift, textSigned, textUnsigned, textMem, textBranch1, textBranch2,
      textJump, textRRR, textRR, textR]
    repeat apply beginsUndotted_append
    decide

end Machine

open Machine in
/-- Settles O57: a rejected word is rendered as `.word`, and an instruction's text begins with its
mnemonic, so never with the dot. -/
theorem disassemblerInLockStep : Obligations.DisassemblerInLockStep := by
  unfold Obligations.DisassemblerInLockStep
  intro a w
  constructor
  · intro e he
    simp only [disassembleWord, he]
  · intro i hi v hv
    simp only [disassembleWord, hi] at hv
    have hbegins := beginsUndotted_instrText a i
    rw [hv, beginsUndotted_wordText] at hbegins
    cases hbegins

end Sys2Proof
end

section
/-! SUPPORT. The proofs of the statements about where an instruction and a step stop
(spec/60_exceptions.md), and of those that rest on the cases of a step alone (spec/40_cycle.md). -/

namespace Sys2Proof

namespace Machine

/-! ## The cases of DIV and DIVU (R101, R102) -/

/-- R101: the operands of the overflow case, as signed numbers and as words. -/
theorem div_overflow_iff {a b : Word} :
    (a.toInt = -2147483648 ∧ b.toInt = -1) ↔ (a = 0x80000000 ∧ b = 0xFFFFFFFF) := by
  rw [← BitVec.toInt_inj (x := a), ← BitVec.toInt_inj (x := b)]
  rfl

theorem toInt_eq_zero_iff {b : Word} : b.toInt = 0 ↔ b = 0 := by
  rw [← BitVec.toInt_inj]
  rfl

theorem execDiv_of_zero {rs rt : RegIndex} {s : State} (h : s.reg rt = 0) :
    execDiv rs rt s = .next s.commit := by
  unfold execDiv
  exact if_pos (toInt_eq_zero_iff.mpr h)

theorem execDivu_of_zero {rs rt : RegIndex} {s : State} (h : s.reg rt = 0) :
    execDivu rs rt s = .next s.commit := by
  unfold execDivu
  exact if_pos (by rw [h]; rfl)

theorem execDivu_of_ne_zero {rs rt : RegIndex} {s : State} (h : s.reg rt ≠ 0) :
    execDivu rs rt s =
      writeHiLo s (BitVec.ofNat 32 ((s.reg rs).toNat % (s.reg rt).toNat))
        (BitVec.ofNat 32 ((s.reg rs).toNat / (s.reg rt).toNat)) := by
  unfold execDivu
  exact if_neg fun h0 => h (BitVec.eq_of_toNat_eq h0)

/-- R101, D7: the overflow case does what `DIV_OVF` says. -/
theorem execDiv_of_overflow {rs rt : RegIndex} {s : State} (hs : s.reg rs = 0x80000000)
    (ht : s.reg rt = 0xFFFFFFFF) :
    (s.config.divOvf = .fault → execDiv rs rt s = .fault .divOverflow) ∧
    (∀ lo hi, s.config.divOvf = .pair lo hi → execDiv rs rt s = writeHiLo s hi lo) := by
  have h0 : (s.reg rt).toInt ≠ 0 := by rw [ht]; decide
  have hov := div_overflow_iff.mpr ⟨hs, ht⟩
  constructor
  · intro hc
    simp only [execDiv, if_neg h0, if_pos hov, hc]
  · intro lo hi hc
    simp only [execDiv, if_neg h0, if_pos hov, hc]

/-- R101: the division proper. -/
theorem execDiv_of_regular {rs rt : RegIndex} {s : State} (h0 : s.reg rt ≠ 0)
    (hov : ¬ (s.reg rs = 0x80000000 ∧ s.reg rt = 0xFFFFFFFF)) :
    execDiv rs rt s =
      writeHiLo s
        (BitVec.ofInt 32
          ((s.reg rs).toInt - (s.reg rs).toInt.tdiv (s.reg rt).toInt * (s.reg rt).toInt))
        (BitVec.ofInt 32 ((s.reg rs).toInt.tdiv (s.reg rt).toInt)) := by
  rw [← div_overflow_iff] at hov
  unfold execDiv
  exact (if_neg (mt toInt_eq_zero_iff.mp h0)).trans (if_neg hov)

/-! ## Where an operation stops -/

/-- An operation's answer is the fault given, or a result if none is given. -/
def Stops {α : Type} (fault : Option Fault) (v : Except Fault α) : Prop :=
  match fault with
  | some k => v = .error k
  | none   => ∃ a, v = .ok a

/-- An instruction's answer is the fault given, or a next state if none is given. -/
def AnswersAs (fault : Option Fault) (r : Result State) : Prop :=
  match fault with
  | some k => r = .fault k
  | none   => ∃ t, r = .next t

/-- R35, R36: an aligned `MemRead` succeeds. -/
theorem memRead_of_aligned (s : State) {a : Word} (h : aligned a = true) :
    memRead s a = .ok (if mapped s.config a.toNat then s.mem.readWord a.toNat else 0) :=
  memRead_eq_ok.mpr ⟨h, rfl⟩

theorem memRead_stops (s : State) (a : Word) :
    Stops (if aligned a then none else some .misalignedAccess) (memRead s a) := by
  cases h : aligned a
  · exact memRead_eq_error.mpr ⟨h, rfl⟩
  · exact ⟨_, memRead_of_aligned s h⟩

theorem memWrite_stops (s : State) (a v : Word) :
    Stops (if aligned a then none else some .misalignedAccess) (memWrite s a v) := by
  cases h : aligned a
  · exact memWrite_eq_error.mpr ⟨h, rfl⟩
  · exact ⟨_, memWrite_of_aligned s v h⟩

theorem subwordLocate_byte_stops (mode : SubwordUnaligned) (ea : Word) :
    Stops (if aligned ea then none else if mode = .bytewise then none else some .misalignedAccess)
      (subwordLocate mode ea .byte) := by
  cases h : aligned ea
  · cases mode
    · exact subwordLocate_fault h
    · exact ⟨_, subwordLocate_bytewise_byte h⟩
  · exact ⟨_, subwordLocate_aligned h⟩

theorem subwordLocate_half_stops (mode : SubwordUnaligned) (ea : Word) :
    Stops (if aligned ea then none
        else if mode = .bytewise ∧ ea.toNat % 2 = 0 then none else some .misalignedAccess)
      (subwordLocate mode ea .half) := by
  cases h : aligned ea
  · cases mode
    · exact subwordLocate_fault h
    · rw [subwordLocate_bytewise_half h]
      obtain h2 | h2 := Nat.mod_two_eq_zero_or_one ea.toNat
      · simp [h2, Stops]
      · simp [h2, Stops]
  · exact ⟨_, subwordLocate_aligned h⟩

/-- A sub-word access stops exactly where it is not located: the word it fetches is aligned. -/
theorem readSubword_stops {s : State} {ea : Word} {size : SubwordSize} {fault : Option Fault}
    (h : Stops fault (subwordLocate s.config.subwordUnaligned ea size)) :
    Stops fault (readSubword s ea size) := by
  cases fault with
  | some k => exact readSubword_eq_error h
  | none =>
    obtain ⟨⟨wa, k⟩, hloc⟩ := h
    have hread := memRead_of_aligned s (subwordLocate_eq_ok hloc).1
    simp only [Stops, readSubword, hloc, hread]
    exact ⟨_, rfl⟩

theorem loadSubword_stops {s : State} {ea : Word} {size : SubwordSize} {fault : Option Fault}
    (extract : Word → Nat → Word)
    (h : Stops fault (subwordLocate s.config.subwordUnaligned ea size)) :
    Stops fault (loadSubword s ea size extract) := by
  have hread := readSubword_stops h
  cases fault with
  | some k =>
    have hread : readSubword s ea size = .error k := hread
    simp only [Stops, loadSubword, hread]
  | none =>
    obtain ⟨⟨wa, k, w⟩, hread⟩ := hread
    simp only [Stops, loadSubword, hread]
    exact ⟨_, rfl⟩

theorem readSubword_eq_ok_aligned {s : State} {ea wa w : Word} {size : SubwordSize} {k : Nat}
    (h : readSubword s ea size = .ok (wa, k, w)) : aligned wa = true := by
  unfold readSubword at h
  split at h
  · cases h
  · rename_i hloc
    split at h
    · cases h
    · cases h
      exact (subwordLocate_eq_ok hloc).1

theorem storeSubword_stops {s : State} {ea : Word} {size : SubwordSize} {fault : Option Fault}
    (splice : Word → Nat → Word)
    (h : Stops fault (subwordLocate s.config.subwordUnaligned ea size)) :
    Stops fault (storeSubword s ea size splice) := by
  have hread := readSubword_stops h
  cases fault with
  | some k =>
    have hread : readSubword s ea size = .error k := hread
    simp only [Stops, storeSubword, hread]
  | none =>
    obtain ⟨⟨wa, k, w⟩, hread⟩ := hread
    have hwrite := memWrite_of_aligned s (splice w k) (readSubword_eq_ok_aligned hread)
    simp only [Stops, storeSubword, hread, hwrite]
    exact ⟨_, rfl⟩

theorem finishLoad_answersAs {s : State} {rt : RegIndex} {v : Except Fault Word}
    {fault : Option Fault} (h : Stops fault v) : AnswersAs fault (finishLoad s rt v) := by
  cases fault with
  | some k => exact congrArg (finishLoad s rt) h
  | none =>
    obtain ⟨w, rfl⟩ := h
    exact ⟨_, rfl⟩

theorem finishStore_answersAs {v : Except Fault State} {fault : Option Fault} (h : Stops fault v) :
    AnswersAs fault (finishStore v) := by
  cases fault with
  | some k => exact congrArg finishStore h
  | none =>
    obtain ⟨u, rfl⟩ := h
    exact ⟨_, rfl⟩

/-- R137: SW's read changes nothing, so SW is its write. -/
theorem execSw_eq (rt rs : RegIndex) (imm : Imm16) (s : State) :
    execSw rt rs imm s = finishStore (memWrite s (effectiveAddress s rs imm) (s.reg rt)) := by
  unfold execSw
  cases h : aligned (effectiveAddress s rs imm)
  · rw [memRead_eq_error.mpr ⟨h, rfl⟩, memWrite_eq_error.mpr ⟨h, rfl⟩]
    rfl
  · rw [memRead_of_aligned s h]

theorem execDiv_answersAs (rs rt : RegIndex) (s : State) :
    AnswersAs (faultOf s (.div rs rt)) (execDiv rs rt s) := by
  rw [faultOf]
  by_cases h0 : s.reg rt = 0
  · rw [if_neg (by rw [h0]; rintro ⟨-, h, -⟩; cases h), execDiv_of_zero h0]
    exact ⟨_, rfl⟩
  · by_cases hov : s.reg rs = 0x80000000 ∧ s.reg rt = 0xFFFFFFFF
    · obtain ⟨hfault, hpair⟩ := execDiv_of_overflow hov.1 hov.2
      cases hc : s.config.divOvf with
      | fault =>
        rw [if_pos ⟨hov.1, hov.2, rfl⟩]
        exact hfault hc
      | pair lo hi =>
        rw [if_neg (by rintro ⟨-, -, h⟩; cases h), hpair lo hi hc]
        exact ⟨_, rfl⟩
    · rw [if_neg fun h => hov ⟨h.1, h.2.1⟩, execDiv_of_regular h0 hov]
      exact ⟨_, rfl⟩

theorem execDivu_answersAs (rs rt : RegIndex) (s : State) : AnswersAs none (execDivu rs rt s) := by
  by_cases h0 : s.reg rt = 0
  · exact ⟨_, execDivu_of_zero h0⟩
  · exact ⟨_, execDivu_of_ne_zero h0⟩

/-- R138 to R141: every instruction answers as `faultOf` says. -/
theorem exec_answersAs (i : Instr) (s : State) : AnswersAs (faultOf s i) (exec i s) := by
  cases i with
  | lb => exact finishLoad_answersAs (loadSubword_stops _ (subwordLocate_byte_stops _ _))
  | lh => exact finishLoad_answersAs (loadSubword_stops _ (subwordLocate_half_stops _ _))
  | lw => exact finishLoad_answersAs (memRead_stops _ _)
  | sb => exact finishStore_answersAs (storeSubword_stops _ (subwordLocate_byte_stops _ _))
  | sh => exact finishStore_answersAs (storeSubword_stops _ (subwordLocate_half_stops _ _))
  | sw rt rs imm =>
    rw [exec, execSw_eq]
    exact finishStore_answersAs (memWrite_stops _ _ _)
  | div rs rt => exact execDiv_answersAs rs rt s
  | divu rs rt => exact execDivu_answersAs rs rt s
  | _ => exact ⟨_, rfl⟩

theorem exec_eq_fault_iff {i : Instr} {s : State} {k : Fault} :
    exec i s = .fault k ↔ faultOf s i = some k := by
  have h := exec_answersAs i s
  cases hf : faultOf s i with
  | some k' =>
    rw [hf] at h
    rw [show exec i s = .fault k' from h]
    simp
  | none =>
    rw [hf] at h
    obtain ⟨t, ht⟩ := h
    simp [ht]

theorem exec_ne_refused (i : Instr) (s : State) (r : Refusal) : exec i s ≠ .refused r := by
  have h := exec_answersAs i s
  cases hf : faultOf s i with
  | some k =>
    rw [hf] at h
    rw [show exec i s = .fault k from h]
    nofun
  | none =>
    rw [hf] at h
    obtain ⟨t, ht⟩ := h
    rw [ht]
    nofun

end Machine

open Machine in
/-- Settles O10: each instruction answers as `faultOf` says, by cases on the instruction. -/
theorem instructionsFaultExactlyWhereTheSpecSays :
    Obligations.InstructionsFaultExactlyWhereTheSpecSays := by
  unfold Obligations.InstructionsFaultExactlyWhereTheSpecSays
  intro i s
  refine ⟨fun k => exec_eq_fault_iff, fun hnone => ?_, exec_ne_refused i s⟩
  have h := exec_answersAs i s
  rw [hnone] at h
  exact h

namespace Machine

/-! ## The cases of a step (R28, R74, R75, R79, R83) -/

theorem step_of_fault {s : State} {k : Fault} (h : s.fault = some k) : step s = .fault k := by
  simp only [step, h, stepFaulted]

theorem step_of_halted {s : State} (hf : s.fault = none) (hr : s.run = false) : step s = .next s := by
  simp [step, hf, hr, stepHalted]

theorem step_of_misaligned {s : State} (hf : s.fault = none) (hr : s.run = true)
    (ha : aligned s.pc = false) : step s = .fault .misalignedAccess := by
  have hfetch : fetch s = .error .misalignedAccess := memRead_eq_error.mpr ⟨ha, rfl⟩
  simp [step, hf, hr, hfetch]

theorem step_of_reject {s : State} {w : Word} {e : DecodeReject} (hf : s.fault = none)
    (hr : s.run = true) (hw : fetch s = .ok w) (hd : decode w = .error e) :
    step s = .next s.commit := by
  simp [step, hf, hr, hw, hd, execUnimplemented]

/-- Every state is in one of the cases of a step: faulted, halted, at a misaligned PC, or with a fetched
word. -/
theorem state_cases (s : State) :
    (∃ k, s.fault = some k) ∨ (s.fault = none ∧ s.run = false) ∨
      (s.fault = none ∧ s.run = true ∧
        (aligned s.pc = false ∨ (aligned s.pc = true ∧ ∃ w, fetch s = .ok w))) := by
  cases hf : s.fault with
  | some k => exact .inl ⟨k, rfl⟩
  | none =>
    cases hr : s.run
    · exact .inr (.inl ⟨rfl, rfl⟩)
    · refine .inr (.inr ⟨rfl, rfl, ?_⟩)
      cases ha : aligned s.pc
      · exact .inl rfl
      · exact .inr ⟨rfl, _, memRead_of_aligned s ha⟩

/-- R28, R75, R140: the ways a step stops. -/
theorem step_eq_fault_iff {s : State} {k : Fault} :
    step s = .fault k ↔
      s.fault = some k ∨
      (s.fault = none ∧ s.run = true ∧
        ((aligned s.pc = false ∧ k = .misalignedAccess) ∨
          ∃ w i, memRead s s.pc = .ok w ∧ decode w = .ok i ∧ faultOf s i = some k)) := by
  obtain ⟨k', hf⟩ | ⟨hf, hr⟩ | ⟨hf, hr, ha | ⟨ha, w, hw⟩⟩ := state_cases s
  · simp [step_of_fault hf, hf]
  · simp [step_of_halted hf hr, hf, hr]
  · have hread : ∀ w, memRead s s.pc ≠ .ok w := fun w h => by
      rw [(memRead_eq_ok.mp h).1] at ha
      cases ha
    simp [step_of_misaligned hf hr ha, hf, hr, ha, hread, eq_comm]
  · have hread : memRead s s.pc = .ok w := hw
    cases hd : decode w with
    | error e => simp [step_of_reject hf hr hw hd, hf, hr, ha, hread, hd]
    | ok i => simp [step_eq_exec hf hr hw hd, hf, hr, ha, hread, hd, exec_eq_fault_iff]

theorem step_ne_refused (s : State) (r : Refusal) : step s ≠ .refused r := by
  obtain ⟨k', hf⟩ | ⟨hf, hr⟩ | ⟨hf, hr, ha | ⟨ha, w, hw⟩⟩ := state_cases s
  · rw [step_of_fault hf]
    nofun
  · rw [step_of_halted hf hr]
    nofun
  · rw [step_of_misaligned hf hr ha]
    nofun
  · cases hd : decode w with
    | error e =>
      rw [step_of_reject hf hr hw hd]
      nofun
    | ok i =>
      rw [step_eq_exec hf hr hw hd]
      exact exec_ne_refused i s r

/-- The four bytes from an address on decode as their word does. -/
theorem decodeBytes_eq_ok_iff (s : State) (a : Nat) (i : Instr) :
    decodeBytes [s.byteAt a, s.byteAt (a + 1), s.byteAt (a + 2), s.byteAt (a + 3)] = .ok (i, []) ↔
      decode (s.wordAt a) = .ok i := by
  rw [decodeBytes, State.wordAt]
  cases decode _ <;> simp [Except.map]

/-! ## A core that cannot step (R28, R83, R153) -/

theorem canStep_eq_true_iff {s : State} : canStep s = true ↔ s.run = true ∧ s.fault = none := by
  simp [canStep]

theorem canStep_of_fault {s : State} {k : Fault} (h : s.fault = some k) : canStep s = false := by
  simp [canStep, h]

theorem canStep_of_halted {s : State} (h : s.run = false) : canStep s = false := by
  simp [canStep, h]

/-- R84: a batch run leaves a core that cannot step as it is. -/
theorem runFor_of_not_canStep {s : State} (n : Nat) (h : canStep s = false) : runFor n s = s := by
  cases n with
  | zero => rfl
  | succ n => simp [runFor, h]

theorem hostStep_of_next {s t : State} (h : step s = .next t) : hostStep s = t := by
  simp only [hostStep, h]

theorem hostStep_of_fault {s : State} {k : Fault} (h : step s = .fault k) :
    hostStep s = { s with fault := some k } := by
  simp only [hostStep, h]

/-- R153: the host's step is the core's next state, or records its fault. -/
theorem hostStep_cases (s : State) :
    (∃ t, step s = .next t ∧ hostStep s = t) ∨
      ∃ k, step s = .fault k ∧ hostStep s = { s with fault := some k } := by
  cases h : step s with
  | next t => exact .inl ⟨t, rfl, hostStep_of_next h⟩
  | fault k => exact .inr ⟨k, rfl, hostStep_of_fault h⟩
  | refused r => exact absurd h (step_ne_refused s r)

/-! ## The image is stored and nothing else changes -/

theorem storeImageWord_keeps (s : State) (a w : Word) :
    storeImageWord s a w = { s with mem := (storeImageWord s a w).mem } := by
  unfold storeImageWord
  split
  · rename_i h
    exact memWrite_keeps h
  · rfl

theorem loadImage_keeps (s : State) (a : Word) (ws : List Word) :
    loadImage s a ws = { s with mem := (loadImage s a ws).mem } := by
  induction ws generalizing s a with
  | nil => rfl
  | cons w ws ih =>
    rw [loadImage, ih, storeImageWord_keeps]

/-- R162: everything but memory after reset. -/
theorem hostReset_keeps (s : State) :
    hostReset s = { State.cleared s.config s.image with mem := (hostReset s).mem } := by
  rw [hostReset_eq_loadImage_cleared]
  exact loadImage_keeps _ _ _

theorem hostReset_fault (s : State) : (hostReset s).fault = none := by
  rw [hostReset_keeps]
  rfl

theorem setRegister_eq_ok {s t : State} {n : Nat} {v : Word} (h : setRegister s n v = .ok t) :
    ∃ r, t = s.setReg r v := by
  obtain hn | hn := Nat.lt_or_ge n 32
  · rw [setRegister_of_lt s v hn] at h
    exact ⟨_, (Except.ok.inj h).symm⟩
  · rw [setRegister_of_le s v hn] at h
    cases h

theorem hostWriteWord_eq_ok {s t : State} {a v : Word} (h : hostWriteWord s a v = .ok t) :
    memWrite s a v = .ok t := by
  unfold hostWriteWord at h
  split at h
  · rename_i hw
    cases h
    exact hw
  · cases h

end Machine

open Machine in
/-- Settles O11: by the cases of a step, the last of which answers as the instruction does. -/
theorem stepFaultsExactlyWhereTheSpecSays : Obligations.StepFaultsExactlyWhereTheSpecSays := by
  unfold Obligations.StepFaultsExactlyWhereTheSpecSays
  exact fun s => ⟨fun _ => step_eq_fault_iff, step_ne_refused s⟩

open Machine in
/-- Settles O6: the word of the four bytes is the word fetched. -/
theorem stepRunsTheDecodedInstruction : Obligations.StepRunsTheDecodedInstruction := by
  unfold Obligations.StepRunsTheDecodedInstruction
  intro s i hc hf hr ha hbytes
  exact step_eq_exec hf hr (memRead_eq_wordAt hc ha) ((decodeBytes_eq_ok_iff s _ i).mp hbytes)

open Machine in
/-- Settles O7: the step of a rejected word is a commit and no more. -/
theorem unimplementedWordIsNoOp : Obligations.UnimplementedWordIsNoOp := by
  unfold Obligations.UnimplementedWordIsNoOp
  intro s w e hf hr hw hd
  have hfetch : fetch s = .ok w := hw
  refine ⟨s.commit, step_of_reject hf hr hfetch hd, onlyGoesTo_commitTo s _, ?_⟩
  simp [diagnostic, hf, hr, hfetch, hd]

open Machine in
/-- Settles O8: a halted core answers itself, and a batch run does not start. -/
theorem haltedCoreHasNoStep : Obligations.HaltedCoreHasNoStep := by
  unfold Obligations.HaltedCoreHasNoStep
  intro s n hf hr
  have hstep := step_of_halted hf hr
  exact ⟨hstep, hostStep_of_next hstep, runFor_of_not_canStep n (canStep_of_halted hr)⟩

open Machine in
/-- Settles O9: the host's step records the fault; a core with a fault cannot step, the host's writes
are to other fields, and reset starts from a state without a fault. -/
theorem modelFaultIsStickyUntilReset : Obligations.ModelFaultIsStickyUntilReset := by
  unfold Obligations.ModelFaultIsStickyUntilReset
  intro s k hstep
  have hs := hostStep_of_fault hstep
  have hf : (hostStep s).fault = some k := by rw [hs]
  refine ⟨hs, step_of_fault hf, fun n => ?run, fun v => ⟨hf, hf⟩, fun n v t ht => ?register,
    fun a v t ht => ?word, hostReset_fault _, fun words => hostReset_fault _⟩
  case run =>
    have hn := runFor_of_not_canStep n (canStep_of_fault hf)
    refine ⟨hn, ?_⟩
    simp [runToCompletion, hn, hf]
  case register =>
    obtain ⟨r, rfl⟩ := setRegister_eq_ok ht
    exact hf
  case word =>
    rw [memWrite_keeps (hostWriteWord_eq_ok ht)]
    exact hf

end Sys2Proof
end

section
/-! SUPPORT. The proofs of the statements about memory, loads and stores (spec/20_memory.md,
spec/49_load_store.md). -/

namespace Sys2Proof

namespace Machine

/-! ## Reads and writes of whole words -/

/-- A word write changes memory and nothing else. -/
theorem memWrite_eq_withMem {s t : State} {a v : Word} (h : memWrite s a v = .ok t) :
    ∃ m, t = { s with mem := m } :=
  ⟨t.mem, memWrite_keeps h⟩

/-- A commit leaves memory as it is. -/
theorem memRead_commit (s : State) (a : Word) : memRead s.commit a = memRead s a := rfl

/-- R36: an aligned address in no region reads 0. -/
theorem memRead_of_unmapped {s : State} {a : Word} (ha : aligned a = true)
    (hm : mapped s.config a.toNat = false) : memRead s a = .ok 0 := by
  rw [memRead_of_aligned s ha, hm]
  rfl

/-- R38: a write to an aligned address in no region is dropped. -/
theorem memWrite_of_unmapped {s : State} {a : Word} (v : Word) (ha : aligned a = true)
    (hm : mapped s.config a.toNat = false) : memWrite s a v = .ok s := by
  rw [memWrite_of_aligned s v ha, hm]
  rfl

/-- R39: in a region the word written is the word read. -/
theorem memRead_memWrite_self {s t : State} {a v : Word} (hs : s.Inv) (h : memWrite s a v = .ok t)
    (hm : mapped s.config a.toNat = true) : memRead t a = .ok v := by
  obtain ⟨ha, rfl⟩ := memWrite_eq_ok.mp h
  rw [memRead_of_aligned _ ha, if_pos hm, if_pos hm, Memory.readWord_writeWord _ _ hs.canonical]

/-- A word write leaves every other aligned word as it was. -/
theorem wordAt_memWrite_of_ne {s t : State} {a b v : Word} (h : memWrite s a v = .ok t)
    (hb : aligned b = true) (hne : a ≠ b) : t.wordAt b.toNat = s.wordAt b.toNat := by
  have ha := aligned_iff.mp (memWrite_eq_ok.mp h).1
  have hb := aligned_iff.mp hb
  have hne : a.toNat ≠ b.toNat := fun e => hne (BitVec.eq_of_toNat_eq e)
  have hout : ∀ k < 4, t.byteAt (b.toNat + k) = s.byteAt (b.toNat + k) := fun k hk =>
    memWrite_byteAt_of_outside h (by omega)
  simp only [State.wordAt, hout 1 (by omega), hout 2 (by omega), hout 3 (by omega)]
  rw [show t.byteAt b.toNat = s.byteAt b.toNat from hout 0 (by omega)]

/-! ## Loads -/

/-- A load that read the word `w` only writes `rt`. -/
theorem finishLoad_writesReg (s : State) (rt : RegIndex) (w : Word) :
    ∃ t, finishLoad s rt (.ok w) = .next t ∧ WritesReg rt w (s.pc + 4) s t :=
  writeReg_writesReg s rt w

/-- R131: a located sub-word load takes its lane out of the word that holds the address. -/
theorem loadSubword_eq {s : State} (hc : s.config.wf = true) {ea wa : Word} {size : SubwordSize}
    {k : Nat} (extract : Word → Nat → Word)
    (h : subwordLocate s.config.subwordUnaligned ea size = .ok (wa, k)) :
    loadSubword s ea size extract = .ok (extract (s.wordAt wa.toNat) k) := by
  simp only [loadSubword, readSubword_eq hc h]

/-- R132: the lane of a byte access holds the byte at its address. -/
theorem byteLane_wordAt {s : State} {mode : SubwordUnaligned} {ea wa : Word} {k : Nat}
    (h : subwordLocate mode ea .byte = .ok (wa, k)) :
    byteLane (s.wordAt wa.toNat) k = s.byteAt ea.toNat := by
  obtain ⟨-, hea, hk, -⟩ := subwordLocate_eq_ok h
  rw [byteLane_eq, byteOfWord_wordAt s _ hk, hea]

/-- R133: the lane of a halfword access holds the halfword at its address. -/
theorem halfLane_wordAt {s : State} {mode : SubwordUnaligned} {ea wa : Word} {k : Nat}
    (h : subwordLocate mode ea .half = .ok (wa, k)) :
    halfLane (s.wordAt wa.toNat) k = s.halfAt ea.toNat := by
  obtain ⟨-, hea, -, hk⟩ := subwordLocate_eq_ok h
  have hk := hk rfl
  rw [halfLane_eq, byteOfWord_wordAt s _ (by omega), byteOfWord_wordAt s _ (by omega), State.halfAt,
    hea, Nat.add_assoc]

/-! ## Stores -/

/-- R131: a located sub-word store writes back the word that holds the address, with its lane
replaced. -/
theorem storeSubword_eq {s : State} (hc : s.config.wf = true) {ea wa : Word} {size : SubwordSize}
    {k : Nat} (splice : Word → Nat → Word)
    (h : subwordLocate s.config.subwordUnaligned ea size = .ok (wa, k)) :
    storeSubword s ea size splice = memWrite s wa (splice (s.wordAt wa.toNat) k) := by
  simp only [storeSubword, readSubword_eq hc h]

/-- A store that succeeds was located. -/
theorem located_of_storeSubword {s t : State} {ea : Word} {size : SubwordSize}
    {splice : Word → Nat → Word} (h : storeSubword s ea size splice = .ok t) :
    ∃ wa k, subwordLocate s.config.subwordUnaligned ea size = .ok (wa, k) := by
  cases hloc : subwordLocate s.config.subwordUnaligned ea size with
  | ok p => exact ⟨p.1, p.2, rfl⟩
  | error f =>
    simp only [storeSubword, readSubword_eq_error hloc] at h
    cases h

/-- R135: what SB stores. -/
theorem storesBytes_storeByte {s t : State} {ea v : Word} (hs : s.Inv)
    (h : storeSubword s ea .byte (fun w k => spliceByte w k (v.extractLsb' 0 8)) = .ok t) :
    StoresBytes ea.toNat 1 v s t.commit := by
  obtain ⟨wa, k, hloc⟩ := located_of_storeSubword h
  obtain ⟨hwa, hea, hk, -⟩ := subwordLocate_eq_ok hloc
  rw [storeSubword_eq hs.config _ hloc] at h
  refine storesBytes_memWrite_lane hs hea hwa (by omega) (fun j hj => ?_) h
  rw [byteOfWord_spliceByte _ _ hk hj]
  by_cases hjk : j = k
  · subst hjk
    rw [if_pos rfl, if_pos (by omega), Nat.sub_self]
    rfl
  · rw [if_neg hjk, if_neg (by omega), byteOfWord_wordAt s _ hj]

/-- R136: what SH stores. -/
theorem storesBytes_storeHalf {s t : State} {ea v : Word} (hs : s.Inv)
    (h : storeSubword s ea .half (fun w k => spliceHalf w k (v.extractLsb' 0 16)) = .ok t) :
    StoresBytes ea.toNat 2 v s t.commit := by
  obtain ⟨wa, k, hloc⟩ := located_of_storeSubword h
  obtain ⟨hwa, hea, -, hk⟩ := subwordLocate_eq_ok hloc
  have hk := hk rfl
  rw [storeSubword_eq hs.config _ hloc] at h
  refine storesBytes_memWrite_lane hs hea hwa (by omega) (fun j hj => ?_) h
  rw [byteOfWord_spliceHalf _ _ hk hj]
  by_cases hjk : j = k
  · subst hjk
    rw [if_pos rfl, if_pos (by omega), Nat.sub_self]
    exact BitVec.extractLsb'_extractLsb'_of_le (by omega)
  · by_cases hjk1 : j = k + 1
    · subst hjk1
      rw [if_neg hjk, if_pos rfl, if_pos (by omega), Nat.add_sub_cancel_left]
      exact BitVec.extractLsb'_extractLsb'_of_le (by omega)
    · rw [if_neg hjk, if_neg hjk1, if_neg (by omega), byteOfWord_wordAt s _ hj]

/-- R137: an aligned SW stores the word and commits. -/
theorem exec_sw_of_aligned {rt rs : RegIndex} {imm : Imm16} {s : State}
    (ha : aligned (effectiveAddress s rs imm) = true) :
    ∃ u, memWrite s (effectiveAddress s rs imm) (s.reg rt) = .ok u ∧
      exec (.sw rt rs imm) s = .next u.commit := by
  refine ⟨_, memWrite_of_aligned s _ ha, ?_⟩
  rw [exec, execSw_eq, memWrite_of_aligned s _ ha]
  rfl

/-- A store commits the state its operation answers. -/
theorem exists_finishStore_of_stops {v : Except Fault State} (h : Stops none v) :
    ∃ u, v = .ok u ∧ finishStore v = .next u.commit := by
  obtain ⟨u, rfl⟩ := h
  exact ⟨u, rfl, rfl⟩

/-! ## The host's accesses (R156, R159) -/

theorem hostReadWord_of_ok {s : State} {a w : Word} (h : memRead s a = .ok w) :
    hostReadWord s a = .ok w := by
  simp only [hostReadWord, h]

theorem hostWriteWord_of_ok {s t : State} {a v : Word} (h : memWrite s a v = .ok t) :
    hostWriteWord s a v = .ok t := by
  simp only [hostWriteWord, h]

theorem hostReadWord_of_misaligned {s : State} {a : Word} (ha : aligned a = false) :
    hostReadWord s a = .error (.misalignedAddress a) := by
  simp only [hostReadWord, memRead_eq_error.mpr ⟨ha, rfl⟩]

theorem hostWriteWord_of_misaligned {s : State} {a : Word} (v : Word) (ha : aligned a = false) :
    hostWriteWord s a v = .error (.misalignedAddress a) := by
  simp only [hostWriteWord, memWrite_eq_error.mpr ⟨ha, rfl⟩]

/-! ## Sequences of word writes -/

theorem storeImageWord_of_ok {s t : State} {a w : Word} (h : memWrite s a w = .ok t) :
    storeImageWord s a w = t := by
  simp only [storeImageWord, h]

/-- A word of the image is one word write, or dropped at a misaligned address. -/
theorem storeImageWord_inv {s : State} (a w : Word) (hs : s.Inv) : (storeImageWord s a w).Inv := by
  unfold storeImageWord
  split
  · rename_i h
    exact memWrite_inv hs h
  · exact hs

theorem storeImageWord_config (s : State) (a w : Word) : (storeImageWord s a w).config = s.config := by
  rw [storeImageWord_keeps]

/-- The word at an aligned mapped address after one write. -/
theorem wordAt_storeImageWord {s : State} {a b : Word} (w : Word) (hs : s.Inv) (ha : aligned a = true)
    (hb : aligned b = true) (hm : mapped s.config b.toNat = true) :
    (storeImageWord s a w).wordAt b.toNat = if a = b then w else s.wordAt b.toNat := by
  have hw := memWrite_of_aligned s w ha
  have hkeep := memWrite_keeps hw
  rw [storeImageWord_of_ok hw]
  by_cases hab : a = b
  · subst hab
    have hread := memRead_memWrite_self hs hw hm
    rw [memRead_eq_wordAt (memWrite_inv hs hw).config hb] at hread
    rw [if_pos rfl, Except.ok.inj hread]
  · rw [if_neg hab, wordAt_memWrite_of_ne hw hb hab]

theorem writeAll_cons (s : State) (w : Word × Word) (ws : List (Word × Word)) :
    writeAll s (w :: ws) = writeAll (storeImageWord s w.1 w.2) ws := rfl

/-- The latest write of a longer list is that of the rest, if the rest has one. -/
theorem latestWrite_cons (w : Word × Word) (ws : List (Word × Word)) (a : Word) :
    latestWrite (w :: ws) a = (latestWrite ws a).or (if w.1 = a then some w.2 else none) := by
  unfold latestWrite
  rw [List.reverse_cons, List.find?_append]
  cases ws.reverse.find? fun w => w.1 == a with
  | some x => rfl
  | none => by_cases h : w.1 = a <;> simp [h]

end Machine

open Machine in
/-- Settles O30: an aligned word read is the word of its four bytes. -/
theorem loadWord : Obligations.LoadWord := by
  unfold Obligations.LoadWord
  intro rt rs imm s hc
  constructor
  · intro ha
    rw [exec, execLw, memRead_eq_wordAt hc ha]
    exact finishLoad_writesReg s rt _
  · intro ha
    exact exec_eq_fault_iff.mpr (by simp [faultOf, ha])

open Machine in
/-- Settles O31: where the access is located, its lane holds the byte or the halfword at its address;
elsewhere it stops. -/
theorem subwordLoads : Obligations.SubwordLoads := by
  unfold Obligations.SubwordLoads
  intro rt rs imm s hc
  refine ⟨fun h => ?byte, fun h => ?half, fun ha hmode => ⟨?_, ?_⟩, fun hodd => ?odd⟩
  case byte =>
    obtain ⟨wa, k, hloc⟩ := subwordLocate_byte_ok h
    rw [exec, execLb, loadSubword_eq hc _ hloc, byteLane_wordAt hloc]
    exact finishLoad_writesReg s rt _
  case half =>
    obtain ⟨wa, k, hloc⟩ := subwordLocate_half_ok h
    rw [exec, execLh, loadSubword_eq hc _ hloc, halfLane_wordAt hloc]
    exact finishLoad_writesReg s rt _
  case odd =>
    rw [exec, execLh, loadSubword, readSubword_eq_error (subwordLocate_half_odd hodd)]
    rfl
  all_goals exact exec_eq_fault_iff.mpr (by simp [faultOf, ha, hmode])

open Machine in
/-- Settles O32: SW is one word write, whose bytes are those of the word. -/
theorem storeWord : Obligations.StoreWord := by
  unfold Obligations.StoreWord
  intro rt rs imm s hs
  constructor
  · intro ha
    obtain ⟨u, hu, hexec⟩ := exec_sw_of_aligned (rt := rt) ha
    exact ⟨u.commit, hexec, storesBytes_memWrite hs hu⟩
  · intro ha
    exact exec_eq_fault_iff.mpr (by simp [faultOf, ha])

open Machine in
/-- Settles O33: where the access is located, the word written back differs in its lane alone;
elsewhere it stops. -/
theorem subwordStores : Obligations.SubwordStores := by
  unfold Obligations.SubwordStores
  intro rt rs imm s hs
  refine ⟨fun h => ?byte, fun h => ?half, fun ha hmode => ⟨?_, ?_⟩, fun hodd => ?odd⟩
  case byte =>
    obtain ⟨wa, k, hloc⟩ := subwordLocate_byte_ok h
    obtain ⟨u, hu, hexec⟩ := exists_finishStore_of_stops
      (storeSubword_stops (fun w k => spliceByte w k ((s.reg rt).extractLsb' 0 8)) ⟨_, hloc⟩)
    exact ⟨u.commit, hexec, storesBytes_storeByte hs hu⟩
  case half =>
    obtain ⟨wa, k, hloc⟩ := subwordLocate_half_ok h
    obtain ⟨u, hu, hexec⟩ := exists_finishStore_of_stops
      (storeSubword_stops (fun w k => spliceHalf w k ((s.reg rt).extractLsb' 0 16)) ⟨_, hloc⟩)
    exact ⟨u.commit, hexec, storesBytes_storeHalf hs hu⟩
  case odd =>
    rw [exec, execSh, storeSubword, readSubword_eq_error (subwordLocate_half_odd hodd)]
    rfl
  all_goals exact exec_eq_fault_iff.mpr (by simp [faultOf, ha, hmode])

open Machine in
/-- Settles O34: the base register is as it was, so LW reads the word SW wrote. -/
theorem storeThenLoadYieldsTheValue : Obligations.StoreThenLoadYieldsTheValue := by
  unfold Obligations.StoreThenLoadYieldsTheValue
  intro rt rd rs imm s hs ha hm
  obtain ⟨t, ht, hexec⟩ := exec_sw_of_aligned (rt := rt) ha
  have hbase : effectiveAddress t.commit rs imm = effectiveAddress s rs imm := by
    obtain ⟨m, rfl⟩ := memWrite_eq_withMem ht
    rfl
  have hread : memRead t.commit (effectiveAddress t.commit rs imm) = .ok (s.reg rt) := by
    rw [hbase, memRead_commit]
    exact memRead_memWrite_self hs ht hm
  obtain ⟨u, hu, hwrites⟩ := finishLoad_writesReg t.commit rd (s.reg rt)
  refine ⟨t.commit, u, hexec, ?_, hwrites.dest⟩
  rw [exec, execLw, hread, hu]

open Machine in
/-- Settles O35: the region check fails on both sides. -/
theorem outOfRegionReadsZeroDropsWrites : Obligations.OutOfRegionReadsZeroDropsWrites := by
  unfold Obligations.OutOfRegionReadsZeroDropsWrites
  exact fun s a v ha hm => ⟨memRead_of_unmapped ha hm, memWrite_of_unmapped v ha hm⟩

open Machine in
/-- Settles O36: the host's access is the core's. -/
theorem wordWrittenIsWordRead : Obligations.WordWrittenIsWordRead := by
  unfold Obligations.WordWrittenIsWordRead
  constructor
  · intro s a v hs ha hm
    have hw := memWrite_of_aligned s v ha
    have hread := memRead_memWrite_self hs hw hm
    exact ⟨_, hw, hread, hostWriteWord_of_ok hw, hostReadWord_of_ok hread⟩
  · intro s a ha hm
    have hread := memRead_of_unmapped ha hm
    exact ⟨hread, hostReadWord_of_ok hread⟩

open Machine in
/-- Settles O37: an aligned host access is one word read or write; a misaligned one is refused before
memory is looked at. -/
theorem hostAccessesWholeAlignedWords : Obligations.HostAccessesWholeAlignedWords := by
  unfold Obligations.HostAccessesWholeAlignedWords
  intro s a v hs
  constructor
  · intro ha
    have hw := memWrite_of_aligned s v ha
    have hread := hostReadWord_of_ok (memRead_eq_wordAt hs.config ha)
    have hbytes := storesBytes_memWrite hs hw
    refine ⟨⟨_, hostWriteWord_of_ok hw, memWrite_keeps hw, hbytes.stored, hbytes.memory, ?_⟩, hread,
      ?_⟩
    · intro hm
      exact if_neg (by rw [hm]; decide)
    · rw [disassemble, hread]
      rfl
  · intro ha
    have hread := hostReadWord_of_misaligned (s := s) ha
    refine ⟨hostWriteWord_of_misaligned v ha, hread, ?_⟩
    rw [disassemble, hread]
    rfl

open Machine in
/-- Settles O38, by induction on the writes: the first is read exactly where no later one goes to its
address. -/
theorem readSeesTheLatestWrite : Obligations.ReadSeesTheLatestWrite := by
  unfold Obligations.ReadSeesTheLatestWrite
  intro s ws a hs hws ha hm
  induction ws generalizing s with
  | nil => exact memRead_eq_wordAt hs.config ha
  | cons w ws ih =>
    have hw := hws w List.mem_cons_self
    have hm' : mapped (storeImageWord s w.1 w.2).config a.toNat = true := by
      rw [storeImageWord_config]
      exact hm
    rw [writeAll_cons, ih _ (storeImageWord_inv _ _ hs) (fun x hx => hws x (List.mem_cons_of_mem _ hx)) hm',
      latestWrite_cons, wordAt_storeImageWord _ hs hw ha hm]
    cases latestWrite ws a with
    | some v => rfl
    | none => by_cases h : w.1 = a <;> simp [h]

open Machine in
/-- Settles O39: the next fetch reads the word SW wrote. -/
theorem storedWordIsFetchedNext : Obligations.StoredWordIsFetchedNext := by
  unfold Obligations.StoredWordIsFetchedNext
  intro rt rs imm s hs hpc hea hm
  have ha : aligned (effectiveAddress s rs imm) = true := by
    have hpc := aligned_iff.mp hpc
    rw [hea, aligned_iff, BitVec.toNat_add]
    simp
    omega
  obtain ⟨u, hu, hexec⟩ := exec_sw_of_aligned (rt := rt) ha
  have hnext : u.commit.pc = effectiveAddress s rs imm := by
    obtain ⟨m, rfl⟩ := memWrite_eq_withMem hu
    exact hea.symm
  refine ⟨u.commit, hexec, ?_⟩
  rw [hnext, memRead_commit]
  exact memRead_memWrite_self hs hu (hea ▸ hm)

end Sys2Proof
end

section
/-! SUPPORT. The proofs of the statements over all instructions and of the invariant. Most follow from
the five shapes of a committed cycle (`exec_cases`). -/

namespace Sys2Proof

namespace Machine

/-! ## The invariant -/

/-- The invariant speaks of the configuration and of memory only. -/
theorem State.Inv.congr {s t : State} (hs : s.Inv) (hc : t.config = s.config) (hm : t.mem = s.mem) :
    t.Inv :=
  ⟨hc ▸ hs.config, hm ▸ hs.canonical, hc ▸ hm ▸ hs.inRegions⟩

/-- Only a store can touch what the invariant speaks of, and it is a word write. -/
theorem ExecCase.inv {i : Instr} {s t : State} (h : ExecCase i s t) (hs : s.Inv) : t.Inv := by
  cases h with
  | goes => exact hs.congr rfl rfl
  | reg => exact hs.congr rfl rfl
  | hilo => exact hs.congr rfl rfl
  | halt => exact hs.congr rfl rfl
  | store a v u _ hu => exact (memWrite_inv hs hu).congr rfl rfl

theorem step_inv {s t : State} (hs : s.Inv) (h : step s = .next t) : t.Inv := by
  obtain ⟨-, ⟨-, rfl⟩ | ⟨-, w, -, ⟨-, rfl⟩ | ⟨i, -, hexec⟩⟩⟩ := step_cases h
  · exact hs
  · exact hs.congr rfl rfl
  · exact (exec_cases hexec).inv hs

theorem hostStep_inv {s : State} (hs : s.Inv) : (hostStep s).Inv := by
  obtain ⟨t, hstep, hhost⟩ | ⟨k, -, hhost⟩ := hostStep_cases s
  · rw [hhost]
    exact step_inv hs hstep
  · rw [hhost]
    exact hs.congr rfl rfl

theorem runFor_inv {s : State} (n : Nat) (hs : s.Inv) : (runFor n s).Inv := by
  induction n generalizing s with
  | zero => exact hs
  | succ n ih =>
    rw [runFor]
    split
    · exact ih (hostStep_inv hs)
    · exact hs

theorem loadImage_inv {s : State} (a : Word) (ws : List Word) (hs : s.Inv) : (loadImage s a ws).Inv := by
  induction ws generalizing s a with
  | nil => exact hs
  | cons w ws ih => exact ih _ (storeImageWord_inv a w hs)

/-- The state in which reset begins to write the image has the invariant. -/
theorem cleared_inv {c : Config} (image : List Word) (hc : c.wf = true) : (State.cleared c image).Inv :=
  ⟨hc, Memory.wf_nil, rfl⟩

theorem hostReset_inv {s : State} (hc : s.config.wf = true) : (hostReset s).Inv := by
  rw [hostReset_eq_loadImage_cleared]
  exact loadImage_inv _ _ (cleared_inv _ hc)

/-! ## What each shape of a cycle leaves alone -/

/-- R18, R21: the registers, HI and LO that a cycle leaves alone. -/
theorem ExecCase.registers {i : Instr} {s t : State} (h : ExecCase i s t) :
    (∀ r : RegIndex, destination i ≠ some r → t.reg r = s.reg r) ∧
      (mayWriteHi i = false → t.hi = s.hi) ∧ (mayWriteLo i = false → t.lo = s.lo) := by
  cases h with
  | goes => exact ⟨fun _ _ => rfl, fun _ => rfl, fun _ => rfl⟩
  | reg d v _ hd =>
    refine ⟨fun r hr => ?_, fun _ => rfl, fun _ => rfl⟩
    have hne : r ≠ d := fun e => hr (e ▸ hd)
    rw [State.reg_commitTo, State.reg_setReg_of_ne s v hne]
  | hilo _ _ hh hl =>
    exact ⟨fun _ _ => rfl, fun hi => by simpa [hi] using hh, fun hi => by simpa [hi] using hl⟩
  | halt => exact ⟨fun _ _ => rfl, fun _ => rfl, fun _ => rfl⟩
  | store _ _ _ _ hu =>
    obtain ⟨m, rfl⟩ := memWrite_eq_withMem hu
    exact ⟨fun _ _ => rfl, fun _ => rfl, fun _ => rfl⟩

theorem ExecCase.run_eq {i : Instr} {s t : State} (h : ExecCase i s t) (hi : i ≠ .syscall) :
    t.run = s.run := by
  cases h with
  | goes => rfl
  | reg => rfl
  | hilo => rfl
  | halt he => exact absurd he hi
  | store _ _ _ _ hu =>
    obtain ⟨m, rfl⟩ := memWrite_eq_withMem hu
    rfl

theorem ExecCase.mem_eq {i : Instr} {s t : State} (h : ExecCase i s t) (hi : storeRange s i = none) :
    t.config = s.config ∧ t.mem = s.mem := by
  cases h with
  | goes => exact ⟨rfl, rfl⟩
  | reg => exact ⟨rfl, rfl⟩
  | hilo => exact ⟨rfl, rfl⟩
  | halt => exact ⟨rfl, rfl⟩
  | store _ _ _ he =>
    rw [hi] at he
    cases he

/-- Every shape counts one cycle and keeps what no instruction writes. -/
theorem ExecCase.counts {i : Instr} {s t : State} (h : ExecCase i s t) :
    t.icount = s.icount + 1 ∧ Keeps s t := by
  cases h with
  | goes => exact ⟨rfl, rfl, rfl, rfl⟩
  | reg => exact ⟨rfl, rfl, rfl, rfl⟩
  | hilo => exact ⟨rfl, rfl, rfl, rfl⟩
  | halt => exact ⟨rfl, rfl, rfl, rfl⟩
  | store _ _ _ _ hu =>
    obtain ⟨m, rfl⟩ := memWrite_eq_withMem hu
    exact ⟨rfl, rfl, rfl, rfl⟩

theorem ExecCase.pc_eq {i : Instr} {s t : State} (h : ExecCase i s t) (hi : mayWritePc i = false) :
    t.pc = s.pc + 4 := by
  cases h with
  | goes _ hpc => simpa [hi] using hpc
  | reg _ _ _ _ hpc => simpa [hi] using hpc
  | hilo => rfl
  | halt => rfl
  | store => rfl

/-- R22, R82: the RunFlag after an instruction. -/
theorem exec_run {i : Instr} {s t : State} (h : exec i s = .next t) :
    t.run = (if i = .syscall ∧ s.reg 2 = 0x0000000A then false else s.run) := by
  by_cases hi : i = .syscall
  · subst hi
    obtain ⟨u, hu, hgoes⟩ := exec_syscall_onlyGoesTo s
    obtain rfl : u = t := by
      rw [hu] at h
      injection h
    rw [hgoes.run]
    exact ite_congr (by simp [haltRegister, haltCode]) (fun _ => rfl) (fun _ => rfl)
  · rw [(exec_cases h).run_eq hi, if_neg fun hc => hi hc.1]

/-! ## Aligned addresses (R75) -/

theorem aligned_add_four {a : Word} (h : aligned a = true) : aligned (a + 4) = true := by
  rw [aligned_iff] at h ⊢
  rw [BitVec.toNat_add]
  simp
  omega

/-- R113: a branch from an aligned address has an aligned target. -/
theorem aligned_branchTarget {pc : Word} (imm : Imm16) (h : aligned pc = true) :
    aligned (branchTarget pc imm) = true := by
  rw [aligned_iff] at h ⊢
  rw [branchTarget, branchOffset, BitVec.toNat_add, BitVec.toNat_shiftLeft, Nat.shiftLeft_eq]
  omega

/-- R62: every jump target is aligned. -/
theorem aligned_jumpTarget (pc : Word) (target : Target) : aligned (jumpTarget pc target) = true := by
  rw [aligned_iff, jumpTarget_eq_ofNat, BitVec.toNat_ofNat]
  omega

theorem branchIf_pc_aligned {s t : State} {c : Bool} {imm : Imm16} (h : branchIf s c imm = .next t)
    (ha : aligned s.pc = true) : aligned t.pc = true := by
  cases c <;> cases h
  · exact aligned_add_four ha
  · exact aligned_branchTarget imm ha

/-- R75: every instruction but JR and JALR goes from an aligned address to an aligned one. -/
theorem exec_pc_aligned {i : Instr} {s t : State} (h : exec i s = .next t) (ha : aligned s.pc = true)
    (hi : jumpsToRegister i = false) : aligned t.pc = true := by
  cases i with
  | jr | jalr => cases hi
  | bltz | bgez | beq | bne | blez | bgtz => exact branchIf_pc_aligned h ha
  | j | jal =>
    cases h
    exact aligned_jumpTarget _ _
  | _ =>
    rw [(exec_cases h).pc_eq rfl]
    exact aligned_add_four ha

/-! ## The bytes a store leaves alone -/

theorem exec_store_outside {i : Instr} {s t : State} (hs : s.Inv) (h : exec i s = .next t) {a : Word}
    {n : Nat} (hi : storeRange s i = some (a, n)) {b : Nat} (hb : b < a.toNat ∨ a.toNat + n ≤ b) :
    t.byteAt b = s.byteAt b := by
  cases i with
  | sb rt rs imm =>
    cases hi
    obtain ⟨u, hu, rfl⟩ := finishStore_eq_next h
    exact (storesBytes_storeByte hs hu).memory b hb
  | sh rt rs imm =>
    cases hi
    obtain ⟨u, hu, rfl⟩ := finishStore_eq_next h
    exact (storesBytes_storeHalf hs hu).memory b hb
  | sw rt rs imm =>
    cases hi
    rw [exec, execSw_eq] at h
    obtain ⟨u, hu, rfl⟩ := finishStore_eq_next h
    exact (storesBytes_memWrite hs hu).memory b hb
  | _ => cases hi

end Machine

open Machine in
/-- Settles O47: a step is a halted core, a no-op or an instruction, and of the shapes of an
instruction's cycle only a word write touches what the invariant speaks of. -/
theorem stepKeepsInvariant : Obligations.StepKeepsInvariant := by
  unfold Obligations.StepKeepsInvariant
  exact fun s t hs h => step_inv hs h

open Machine in
/-- Settles O48: the test configuration is evaluated. -/
theorem resetMeetsInvariant : Obligations.ResetMeetsInvariant :=
  ⟨by decide, Memory.wf_nil, rfl⟩

open Machine in
/-- Settles O49: each host operation is a step, a run of steps, a word write, or a write of a field
the invariant does not speak of. -/
theorem hostOperationsKeepInvariant : Obligations.HostOperationsKeepInvariant := by
  unfold Obligations.HostOperationsKeepInvariant
  intro s hs
  refine ⟨hostReset_inv hs.config, fun words => hostReset_inv hs.config, hostStep_inv hs,
    fun n => runFor_inv n hs, fun v => ⟨hs.congr rfl rfl, hs.congr rfl rfl⟩, fun n v t ht => ?_,
    fun a v t ht => memWrite_inv hs (hostWriteWord_eq_ok ht)⟩
  obtain ⟨r, rfl⟩ := setRegister_eq_ok ht
  exact hs.congr rfl rfl

open Machine in
/-- Settles O41: by the shapes of a cycle. -/
theorem onlyNamedRegistersChange : Obligations.OnlyNamedRegistersChange := by
  unfold Obligations.OnlyNamedRegistersChange
  intro i s t h
  exact (exec_cases h).registers

open Machine in
/-- Settles O42: SYSCALL decides the RunFlag on `x[2]`, no other shape touches it, and a core that a
step leaves running was running. -/
theorem onlyHaltingSyscallClearsRun : Obligations.OnlyHaltingSyscallClearsRun := by
  unfold Obligations.OnlyHaltingSyscallClearsRun
  refine ⟨fun i s t h => exec_run h, fun s t h ht => ?_⟩
  obtain ⟨-, ⟨-, rfl⟩ | ⟨hr, -⟩⟩ := step_cases h
  · exact ht
  · exact hr

open Machine in
/-- Settles O43: an instruction that is no store keeps memory as it is, and each store is known byte by
byte. -/
theorem onlyStoresChangeMemory : Obligations.OnlyStoresChangeMemory := by
  unfold Obligations.OnlyStoresChangeMemory
  intro i s t hs h
  refine ⟨fun hnone b => ?_, fun a n hsome b hb => exec_store_outside hs h hsome hb⟩
  obtain ⟨hc, hm⟩ := (exec_cases h).mem_eq hnone
  rw [State.byteAt, State.byteAt, hc, hm]

open Machine in
/-- Settles O44: every shape of a cycle counts one. -/
theorem everyInstructionCountsOneCycle : Obligations.EveryInstructionCountsOneCycle := by
  unfold Obligations.EveryInstructionCountsOneCycle
  intro i s t h
  obtain ⟨hcount, hkeeps⟩ := (exec_cases h).counts
  refine ⟨?_, hkeeps⟩
  rw [hcount, BitVec.toNat_add]
  rfl

open Machine in
/-- Settles O45: every shape of a cycle takes the default advance, or is a branch's or a jump's. -/
theorem onlyBranchesAndJumpsWriteThePc : Obligations.OnlyBranchesAndJumpsWriteThePc := by
  unfold Obligations.OnlyBranchesAndJumpsWriteThePc
  intro i s t h hi
  rw [(exec_cases h).pc_eq hi, BitVec.toNat_add]
  rfl

open Machine in
/-- Settles O46: the default advance, a branch's target and a jump's target are aligned. -/
theorem onlyRegisterJumpsMisalignThePc : Obligations.OnlyRegisterJumpsMisalignThePc := by
  unfold Obligations.OnlyRegisterJumpsMisalignThePc
  intro s t h ha
  obtain ⟨-, ⟨-, rfl⟩ | ⟨-, w, hw, ⟨-, rfl⟩ | ⟨i, hd, hexec⟩⟩⟩ := step_cases h
  · exact .inl ha
  · exact .inl (aligned_add_four ha)
  · cases hj : jumpsToRegister i
    · exact .inl (exec_pc_aligned hexec ha hj)
    · exact .inr ⟨w, i, hw, hd, hj⟩

end Sys2Proof
end

section
/-! SUPPORT. The proofs of the statements about reset, load and batch runs (spec/40_cycle.md §2,
spec/60_exceptions.md §4, spec/70_reset_and_hazards.md). -/

namespace Sys2Proof

namespace Machine

/-! ## Batch runs (R84) -/

theorem runFor_succ_of_canStep {s : State} (n : Nat) (h : canStep s = true) :
    runFor (n + 1) s = runFor n (hostStep s) := by
  rw [runFor, if_pos h]

/-- A run of `k + m` steps is a run of `k`, then one of `m`. -/
theorem runFor_add (k m : Nat) (s : State) : runFor (k + m) s = runFor m (runFor k s) := by
  induction k generalizing s with
  | zero => rw [Nat.zero_add, runFor]
  | succ k ih =>
    cases h : canStep s
    · rw [runFor_of_not_canStep _ h, runFor_of_not_canStep _ h, runFor_of_not_canStep _ h]
    · rw [Nat.succ_add, runFor_succ_of_canStep _ h, runFor_succ_of_canStep _ h, ih]

/-- R84: a run whose core can step each time makes its steps, or its last step meets a fault. -/
theorem runFor_stepsTo {n : Nat} {s : State} (h : ∀ k < n, canStep (runFor k s) = true) :
    StepsTo n s (runFor n s) ∨
      ∃ m u f, n = m + 1 ∧ StepsTo m s u ∧ step u = .fault f ∧
        runFor n s = { u with fault := some f } := by
  induction n generalizing s with
  | zero => exact .inl rfl
  | succ n ih =>
    have hs : canStep s = true := h 0 (Nat.succ_pos n)
    have hrest : ∀ k < n, canStep (runFor k (hostStep s)) = true := fun k hk => by
      rw [← runFor_succ_of_canStep k hs]
      exact h (k + 1) (Nat.succ_lt_succ hk)
    rw [runFor_succ_of_canStep n hs]
    obtain ⟨t, hstep, hhost⟩ | ⟨f, hstep, hhost⟩ := hostStep_cases s
    · rw [hhost] at hrest ⊢
      obtain hsteps | ⟨m, u, f, hn, hsteps, hu, hrun⟩ := ih hrest
      · exact .inl ⟨t, hstep, hsteps⟩
      · exact .inr ⟨m + 1, u, f, congrArg (· + 1) hn, ⟨t, hstep, hsteps⟩, hu, hrun⟩
    · have hstuck : canStep (hostStep s) = false := canStep_of_fault (k := f) (by rw [hhost])
      cases n with
      | zero => exact .inr ⟨0, s, f, rfl, rfl, hstep, hhost⟩
      | succ n =>
        have h0 : canStep (hostStep s) = true := hrest 0 (Nat.succ_pos n)
        rw [hstuck] at h0
        cases h0

/-- A step of a core that can step counts one cycle. -/
theorem icount_of_step {s t : State} (hs : canStep s = true) (h : step s = .next t) :
    t.icount = s.icount + 1 := by
  obtain ⟨hr, -⟩ := canStep_eq_true_iff.mp hs
  obtain ⟨-, ⟨hr', -⟩ | ⟨-, w, -, ⟨-, rfl⟩ | ⟨i, -, hexec⟩⟩⟩ := step_cases h
  · rw [hr] at hr'
    cases hr'
  · rfl
  · exact (exec_cases hexec).counts.1

/-- R23: the count after a run that can still step. -/
theorem icount_runFor {n : Nat} {s : State} (h : canStep (runFor n s) = true) :
    (runFor n s).icount = s.icount + BitVec.ofNat 32 n := by
  induction n generalizing s with
  | zero => simp [runFor]
  | succ n ih =>
    cases hs : canStep s
    · rw [runFor_of_not_canStep _ hs, hs] at h
      cases h
    · rw [runFor_succ_of_canStep n hs] at h ⊢
      obtain ⟨t, hstep, hhost⟩ | ⟨f, -, hhost⟩ := hostStep_cases s
      · rw [hhost] at h ⊢
        rw [ih h, icount_of_step hs hstep, BitVec.add_assoc, Nat.add_comm n 1, BitVec.ofNat_add]
        rfl
      · have hstuck : canStep (hostStep s) = false := canStep_of_fault (k := f) (by rw [hhost])
        rw [runFor_of_not_canStep _ hstuck, hstuck] at h
        cases h

/-- R82: the step that halts a core executes SYSCALL with the halt code. -/
theorem syscall_of_halting_step {s t : State} (hs : canStep s = true) (h : step s = .next t)
    (ht : t.run = false) :
    ∃ w, memRead s s.pc = .ok w ∧ decode w = .ok .syscall ∧ s.reg 2 = 0x0000000A := by
  obtain ⟨hr, -⟩ := canStep_eq_true_iff.mp hs
  obtain ⟨-, ⟨hr', -⟩ | ⟨-, w, hw, ⟨-, rfl⟩ | ⟨i, hd, hexec⟩⟩⟩ := step_cases h
  · rw [hr] at hr'
    cases hr'
  · rw [State.commit_run, hr] at ht
    cases ht
  · rw [exec_run hexec] at ht
    by_cases hc : i = .syscall ∧ s.reg 2 = 0x0000000A
    · obtain ⟨rfl, h2⟩ := hc
      exact ⟨w, hw, hd, h2⟩
    · rw [if_neg hc, hr] at ht
      cases ht

/-- R82, R86: a run from a core that can step to one that is halted and has no fault ends with the
halting step, and every state before it can step. -/
theorem runFor_halts {fuel : Nat} {s : State} (hs : canStep s = true)
    (hf : (runFor fuel s).fault = none) (hr : (runFor fuel s).run = false) :
    ∃ n < fuel, (∀ k ≤ n, canStep (runFor k s) = true) ∧
      step (runFor n s) = .next (runFor fuel s) := by
  induction fuel generalizing s with
  | zero =>
    rw [runFor, (canStep_eq_true_iff.mp hs).1] at hr
    cases hr
  | succ fuel ih =>
    rw [runFor_succ_of_canStep fuel hs] at hf hr ⊢
    cases hnext : canStep (hostStep s)
    · rw [runFor_of_not_canStep _ hnext] at hf hr ⊢
      refine ⟨0, Nat.succ_pos fuel, fun k hk => ?_, ?_⟩
      · obtain rfl := Nat.le_zero.mp hk
        exact hs
      · obtain ⟨t, hstep, hhost⟩ | ⟨f, -, hhost⟩ := hostStep_cases s
        · rw [hhost]
          exact hstep
        · rw [hhost] at hf
          cases hf
    · obtain ⟨n, hn, hsteps, hlast⟩ := ih hnext hf hr
      refine ⟨n + 1, Nat.succ_lt_succ hn, fun k hk => ?_, ?_⟩
      · cases k with
        | zero => exact hs
        | succ k =>
          rw [runFor_succ_of_canStep k hs]
          exact hsteps k (Nat.le_of_succ_le_succ hk)
      · rw [runFor_succ_of_canStep n hs]
        exact hlast

/-- R86: a halted end is a state without a fault whose RunFlag is clear. -/
theorem runToCompletion_eq_halted {fuel : Nat} {s t : State} (h : runToCompletion fuel s = .halted t) :
    runFor fuel s = t ∧ (runFor fuel s).fault = none ∧ (runFor fuel s).run = false := by
  unfold runToCompletion at h
  dsimp only at h
  split at h
  · cases h
  · rename_i hf
    split at h
    · cases h
    · rename_i hr
      injection h with ht
      exact ⟨ht, by simpa using hf, by simpa using hr⟩

/-! ## The image in memory (R152, R162) -/

/-- The address of the next word of an image. -/
theorem imageOffset_succ (a : Word) (k : Nat) :
    a + BitVec.ofNat 32 (4 * (k + 1)) = a + 4 + BitVec.ofNat 32 (4 * k) := by
  rw [Nat.mul_succ, Nat.add_comm (4 * k), BitVec.ofNat_add, ← BitVec.add_assoc]
  rfl

/-- In an image that fits the address space no later word lies at the address of the first. -/
theorem imageOffset_ne {a : Word} {k : Nat} (h0 : 0 < k) (hk : 4 * k < 2 ^ 32) :
    a + BitVec.ofNat 32 (4 * k) ≠ a := by
  intro h
  have h := congrArg BitVec.toNat h
  have ha := a.isLt
  rw [BitVec.toNat_add, BitVec.toNat_ofNat] at h
  omega

/-- An image leaves the aligned words it does not reach as they were. -/
theorem wordAt_loadImage_of_ne {s : State} {a b : Word} {ws : List Word} (hs : s.Inv)
    (ha : aligned a = true) (hb : aligned b = true) (hm : mapped s.config b.toNat = true)
    (hne : ∀ k < ws.length, a + BitVec.ofNat 32 (4 * k) ≠ b) :
    (loadImage s a ws).wordAt b.toNat = s.wordAt b.toNat := by
  induction ws generalizing s a with
  | nil => rfl
  | cons w ws ih =>
    have hab : a ≠ b := by simpa using hne 0 (Nat.succ_pos _)
    have hrest : ∀ k < ws.length, a + 4 + BitVec.ofNat 32 (4 * k) ≠ b := fun k hk => by
      rw [← imageOffset_succ]
      exact hne (k + 1) (Nat.succ_lt_succ hk)
    rw [loadImage, ih (storeImageWord_inv _ _ hs) (aligned_add_four ha)
      (by rw [storeImageWord_config]; exact hm) hrest, wordAt_storeImageWord w hs ha hb hm, if_neg hab]

/-- Word `k` of an image that fits the address space stands at its place, where a region holds it. -/
theorem wordAt_loadImage {s : State} {a : Word} {ws : List Word} (hs : s.Inv) (ha : aligned a = true)
    (hlen : 4 * ws.length ≤ 2 ^ 32) {k : Nat} (hk : k < ws.length)
    (hm : mapped s.config (a + BitVec.ofNat 32 (4 * k)).toNat = true) :
    (loadImage s a ws).wordAt (a + BitVec.ofNat 32 (4 * k)).toNat = ws[k] := by
  induction ws generalizing s a k with
  | nil => cases hk
  | cons w ws ih =>
    have hs' := storeImageWord_inv a w hs
    have ha' := aligned_add_four ha
    rw [List.length_cons] at hlen hk
    rw [loadImage]
    cases k with
    | zero =>
      simp only [Nat.mul_zero, BitVec.add_zero] at hm ⊢
      have hlater : ∀ j < ws.length, a + 4 + BitVec.ofNat 32 (4 * j) ≠ a := fun j hj => by
        rw [← imageOffset_succ]
        exact imageOffset_ne (Nat.succ_pos j) (by omega)
      rw [wordAt_loadImage_of_ne hs' ha' ha (by rw [storeImageWord_config]; exact hm) hlater,
        wordAt_storeImageWord w hs ha ha hm, if_pos rfl]
      rfl
    | succ k =>
      rw [imageOffset_succ] at hm ⊢
      exact ih hs' ha' (by omega) (Nat.lt_of_succ_lt_succ hk) (by rw [storeImageWord_config]; exact hm)

/-- The state in which reset begins to write the image reads 0 everywhere. -/
theorem wordAt_cleared (c : Config) (image : List Word) (a : Nat) :
    (State.cleared c image).wordAt a = 0 := by
  have hbyte : ∀ b, (State.cleared c image).byteAt b = 0 := fun b => by
    simp [State.byteAt, State.cleared, Memory.readByte]
  simp only [State.wordAt, hbyte]
  rfl

/-- D25: loadProgram writes the words into a cleared state. -/
theorem loadProgram_eq (s : State) (words : List Word) :
    loadProgram s words = loadImage (State.cleared s.config words) s.config.textBase words := rfl

theorem loadProgram_config (s : State) (words : List Word) :
    (loadProgram s words).config = s.config := by
  rw [loadProgram, hostReset_keeps]
  rfl

/-- Where R33 holds, an address of the image is aligned (D10). -/
theorem aligned_imageAddress {c : Config} (hc : c.wf = true) (k : Nat) :
    aligned (imageAddress c k) = true := by
  have hbase : c.textBase.toNat % 4 = 0 := by
    simp only [Config.wf, Bool.and_eq_true, decide_eq_true_eq] at hc
    exact hc.2
  rw [aligned_iff, imageAddress, BitVec.toNat_add, BitVec.toNat_ofNat]
  omega

end Machine

open Machine in
/-- Settles O50: the image is written into a state that holds every initial value, and writing it
changes memory alone. -/
theorem resetGivesInitialValues : Obligations.ResetGivesInitialValues := by
  unfold Obligations.ResetGivesInitialValues
  intro s
  rw [hostReset_keeps]
  exact ⟨rfl, fun _ => rfl, rfl, rfl, rfl, rfl, rfl, rfl, rfl⟩

open Machine in
/-- Settles O52: each word of the image is written once and no later word touches it; what no word
touches is as the cleared memory was. -/
theorem loadProgramStoresTheImage : Obligations.LoadProgramStoresTheImage := by
  unfold Obligations.LoadProgramStoresTheImage
  intro s words hc hlen
  have hcleared := cleared_inv words hc
  have hbase : aligned s.config.textBase = true := by
    simpa [imageAddress] using aligned_imageAddress hc 0
  have hload : (loadProgram s words).Inv := hostReset_inv (s := { s with image := words }) hc
  constructor
  · intro k hk hm
    rw [memRead_eq_wordAt hload.config (aligned_imageAddress hc k), loadProgram_eq]
    exact congrArg Except.ok (wordAt_loadImage hcleared hbase hlen hk hm)
  · intro a ha hne
    cases hm : mapped s.config a.toNat
    · exact memRead_of_unmapped ha (by rw [loadProgram_config]; exact hm)
    · rw [memRead_eq_wordAt hload.config ha, loadProgram_eq,
        wordAt_loadImage_of_ne hcleared hbase ha hm hne, wordAt_cleared]

open Machine in
/-- Settles O53, by induction on the steps. -/
theorem batchRunStepsUntilItStops : Obligations.BatchRunStepsUntilItStops := by
  unfold Obligations.BatchRunStepsUntilItStops
  intro n s
  refine ⟨runFor_of_not_canStep n, runFor_stepsTo, fun k hk hstuck => ?_⟩
  obtain ⟨m, rfl⟩ := Nat.exists_eq_add_of_le hk
  rw [runFor_add, runFor_of_not_canStep m hstuck]

open Machine in
/-- Settles O54, by induction on the steps: each counted one cycle. -/
theorem batchRunCountsItsSteps : Obligations.BatchRunCountsItsSteps := by
  unfold Obligations.BatchRunCountsItsSteps
  exact fun n s h => icount_runFor h

open Machine in
/-- Settles O55: the run ends with a step that clears the RunFlag, and only SYSCALL does. -/
theorem runEndsByTheHaltingSyscall : Obligations.RunEndsByTheHaltingSyscall := by
  unfold Obligations.RunEndsByTheHaltingSyscall
  intro fuel s t hs h
  obtain ⟨rfl, hf, hr⟩ := runToCompletion_eq_halted h
  obtain ⟨n, hn, hsteps, hlast⟩ := runFor_halts hs hf hr
  obtain ⟨w, hw, hd, h2⟩ := syscall_of_halting_step (hsteps n (Nat.le_refl n)) hlast hr
  exact ⟨n, w, hn, hsteps, hw, hd, h2, hlast, hr⟩

end Sys2Proof
end

section
/-! SUPPORT. The proofs of the statements about shifts, HI and LO, register arithmetic, branches, jumps
and logical immediates (spec/41_shift.md to spec/48_alu_imm.md). Each says that the word the model
computes is the word the rule names; the frame comes from the lemma on the shape of the cycle. -/

namespace Sys2Proof

namespace Machine

/-! ## One instruction, one shape

An instruction that is known to be a register write, a write of HI and LO, or a branch does that and no
more. -/

theorem exec_writesReg {i : Instr} {s : State} {d : RegIndex} {v v' : Word}
    (h : exec i s = writeReg s d v) (hv : v = v') :
    ∃ t, exec i s = .next t ∧ WritesReg d v' (s.pc + 4) s t := by
  rw [h, hv]
  exact writeReg_writesReg s d v'

theorem exec_writesHiLo {i : Instr} {s : State} {h l : Word} (he : exec i s = writeHiLo s h l) :
    ∃ t, exec i s = .next t ∧ WritesHiLo h l s t := by
  rw [he]
  exact writeHiLo_writesHiLo s h l

/-- R113: a branch that is taken exactly when `p` holds. -/
theorem exec_onlyGoesTo_branch {i : Instr} {s : State} {c : Bool} {imm : Imm16} {p : Prop} [Decidable p]
    (h : exec i s = branchIf s c imm) (hc : c = true ↔ p) :
    ∃ t, exec i s = .next t ∧
      OnlyGoesTo (if p then s.pc + BitVec.ofInt 32 (4 * imm.toInt) else s.pc + 4) s.run s t := by
  have hbranch := branchIf_onlyGoesTo s c imm
  simp only [hc, branchTarget_eq] at hbranch
  rw [h]
  exact hbranch

/-- A commit alone writes HI and LO with the values they had. -/
theorem commit_eq_writeHiLo (s : State) : (.next s.commit : Result State) = writeHiLo s s.hi s.lo := rfl

/-- A word is the number it holds. -/
theorem ofNat_toNat_word (v : Word) : BitVec.ofNat 32 v.toNat = v := by
  rw [BitVec.ofNat_toNat, BitVec.setWidth_eq]

/-! ## Shifts (R87 to R90) -/

theorem shiftLeft_eq_ofNat (v : Word) (n : Nat) : v <<< n = BitVec.ofNat 32 (v.toNat * 2 ^ n) := by
  apply BitVec.eq_of_toNat_eq
  rw [BitVec.toNat_shiftLeft, Nat.shiftLeft_eq, BitVec.toNat_ofNat]

theorem ushiftRight_eq_ofNat (v : Word) (n : Nat) : v >>> n = BitVec.ofNat 32 (v.toNat / 2 ^ n) := by
  rw [← Nat.shiftRight_eq_div_pow, ← BitVec.toNat_ushiftRight, ofNat_toNat_word]

theorem sshiftRight_eq_ofInt (v : Word) (n : Nat) :
    v.sshiftRight n = BitVec.ofInt 32 (v.toInt / 2 ^ n) := by
  rw [BitVec.sshiftRight_eq, Int.shiftRight_eq_div_pow, Int.natCast_pow]
  rfl

/-- Bit 31 is the sign. -/
theorem getLsbD_31_iff {v : Word} : v.getLsbD 31 = true ↔ v.toInt < 0 := by
  rw [← decide_eq_true_iff (p := v.toInt < 0), ← BitVec.msb_eq_toInt, BitVec.msb_eq_getLsbD_last]

/-- R89, R90: where both modes agree. -/
theorem sraResult_eq {mode : SraMode} {v : Word} {shamt : Shamt}
    (h : mode = .arithmetic ∨ 0 ≤ v.toInt ∨ shamt = 0) :
    sraResult mode v shamt = BitVec.ofInt 32 (v.toInt / 2 ^ shamt.toNat) := by
  rw [← sshiftRight_eq_ofInt]
  cases mode with
  | arithmetic => rfl
  | faithful =>
    refine if_neg fun hopen => ?_
    simp only [Bool.and_eq_true, getLsbD_31_iff, bne_iff_ne] at hopen
    obtain h | h | h := h
    · cases h
    · omega
    · exact hopen.2 h

/-- R90: where the faithful mode gives the open value. -/
theorem sraResult_faithful {v : Word} {shamt : Shamt} (hv : v.toInt < 0) (hs : shamt ≠ 0) :
    sraResult .faithful v shamt = Config.sraFaithful v shamt :=
  if_pos (by simp only [Bool.and_eq_true, getLsbD_31_iff, bne_iff_ne]; exact ⟨hv, hs⟩)

/-! ## Products (R98, R99) -/

/-- The halves of an unsigned product. -/
theorem toNat_halves (p : BitVec 64) :
    (p.extractLsb' 32 32).toNat * 2 ^ 32 + (p.extractLsb' 0 32).toNat = p.toNat := by
  have hp := p.isLt
  simp only [BitVec.extractLsb'_toNat, Nat.shiftRight_eq_div_pow]
  omega

/-- The halves of a signed product. -/
theorem toInt_halves (p : BitVec 64) :
    (p.extractLsb' 32 32).toInt * 2 ^ 32 + (p.extractLsb' 0 32).toNat = p.toInt := by
  have hnat := toNat_halves p
  have hp := p.isLt
  have hl := (p.extractLsb' 0 32).isLt
  simp only [BitVec.toInt_eq_toNat_cond]
  split <;> split <;> omega

theorem toInt_signedProduct (a b : Word) :
    (a.signExtend 64 * b.signExtend 64 : BitVec 64).toInt = a.toInt * b.toInt := by
  have hle := BitVec.toInt_mul_toInt_le (x := a) (y := b)
  have hge := BitVec.le_toInt_mul_toInt (x := a) (y := b)
  rw [BitVec.toInt_mul, BitVec.toInt_signExtend_of_le (by decide), BitVec.toInt_signExtend_of_le (by decide)]
  exact Int.bmod_eq_of_le_mul_two (by omega) (by omega)

theorem toNat_unsignedProduct (a b : Word) :
    (a.setWidth 64 * b.setWidth 64 : BitVec 64).toNat = a.toNat * b.toNat := by
  have hlt : a.toNat * b.toNat < 2 ^ 32 * 2 ^ 32 :=
    Nat.mul_lt_mul'' a.isLt b.isLt
  rw [BitVec.toNat_mul, BitVec.toNat_setWidth_of_le (by decide), BitVec.toNat_setWidth_of_le (by decide)]
  exact Nat.mod_eq_of_lt hlt

/-! ## Quotients (R100) -/

theorem ofInt_tdiv (a b : Word) : BitVec.ofInt 32 (a.toInt.tdiv b.toInt) = a.sdiv b := by
  apply BitVec.eq_of_toInt_eq
  rw [BitVec.toInt_ofInt, BitVec.toInt_sdiv]

theorem ofInt_remainder (a b : Word) :
    BitVec.ofInt 32 (a.toInt - a.toInt.tdiv b.toInt * b.toInt) = a.srem b := by
  rw [Int.mul_comm, ← Int.tmod_def, ← BitVec.toInt_srem, BitVec.ofInt_toInt]

/-- The remainder of truncating division is 0 or has the sign of the dividend. -/
theorem tmod_sign (a b : Int) : a.tmod b = 0 ∨ (a.tmod b < 0 ↔ a < 0) := by
  have hsign := Int.sign_tmod a b
  split at hsign
  · exact .inl (Int.sign_eq_zero_iff_zero.mp hsign)
  · exact .inr (by rw [← Int.sign_eq_neg_one_iff_neg, hsign, Int.sign_eq_neg_one_iff_neg])

/-! ## Sums, differences and bits (R103 to R112) -/

theorem add_eq_ofNat (a b : Word) : a + b = BitVec.ofNat 32 (a.toNat + b.toNat) := by
  rw [BitVec.ofNat_add, ofNat_toNat_word, ofNat_toNat_word]

theorem sub_eq_ofInt (a b : Word) : a - b = BitVec.ofInt 32 (a.toNat - b.toNat) := by
  rw [Int.sub_eq_add_neg, BitVec.ofInt_add, BitVec.ofInt_neg, BitVec.ofInt_natCast, BitVec.ofInt_natCast,
    ofNat_toNat_word, ofNat_toNat_word, BitVec.sub_eq_add_neg]

theorem not_eq_ofNat (v : Word) : ~~~v = BitVec.ofNat 32 (2 ^ 32 - 1 - v.toNat) := by
  rw [← BitVec.toNat_not, ofNat_toNat_word]

/-- R26: the word of a comparison. -/
theorem conditionWord_signedLess (a b : Word) :
    conditionWord (signedLess a b) = if a.toInt < b.toInt then 1 else 0 := by
  simp [conditionWord, signedLess]

/-! ## Immediates (R60) -/

theorem zeroExtend16_eq_ofNat (imm : Imm16) : zeroExtend16 imm = BitVec.ofNat 32 imm.toNat :=
  (BitVec.ofNat_toNat 32 imm).symm

theorem upperImmediate_eq_ofNat (imm : Imm16) :
    upperImmediate imm = BitVec.ofNat 32 (imm.toNat * 65536) := by
  rw [← toNat_upperImmediate, ofNat_toNat_word]

end Machine

open Machine in
/-- Settles O12: each shift is one register write of the number. -/
theorem logicalShifts : Obligations.LogicalShifts := by
  unfold Obligations.LogicalShifts
  exact fun rd rt shamt s =>
    ⟨exec_writesReg rfl (shiftLeft_eq_ofNat _ _), exec_writesReg rfl (ushiftRight_eq_ofNat _ _)⟩

open Machine in
/-- Settles O13: the two modes agree but for a negative operand and a count of at least 1. -/
theorem arithmeticShift : Obligations.ArithmeticShift := by
  unfold Obligations.ArithmeticShift
  intro rd rt shamt s
  constructor
  · intro h
    exact exec_writesReg rfl (sraResult_eq h)
  · intro hmode hv hs
    exact exec_writesReg rfl (by rw [hmode, sraResult_faithful hv hs])

open Machine in
/-- Settles O14: JR is a commit to the register's value, and JALR links before it, from the state
before it. -/
theorem registerJumps : Obligations.RegisterJumps := by
  unfold Obligations.RegisterJumps
  exact fun rd rs s =>
    ⟨⟨_, rfl, onlyGoesTo_commitTo s _⟩, ⟨_, rfl, writesReg_setReg_commitTo s rd _ _⟩⟩

open Machine in
/-- Settles O16: MTHI and MTLO write the other accumulator with its own value. -/
theorem hiLoMoves : Obligations.HiLoMoves := by
  unfold Obligations.HiLoMoves
  exact fun r s =>
    ⟨exec_writesReg rfl rfl, exec_writesReg rfl rfl, exec_writesHiLo rfl, exec_writesHiLo rfl⟩

open Machine in
/-- Settles O17: neither product leaves 64 bits, so its halves make the product itself. -/
theorem productsSplitIntoHiAndLo : Obligations.ProductsSplitIntoHiAndLo := by
  unfold Obligations.ProductsSplitIntoHiAndLo
  intro rs rt s
  constructor
  · obtain ⟨t, ht, hw⟩ := exec_writesHiLo (i := .mult rs rt) (s := s) rfl
    exact ⟨t, _, _, ht, hw, (toInt_halves _).trans (toInt_signedProduct _ _)⟩
  · obtain ⟨t, ht, hw⟩ := exec_writesHiLo (i := .multu rs rt) (s := s) rfl
    exact ⟨t, _, _, ht, hw, (toNat_halves _).trans (toNat_unsignedProduct _ _)⟩

open Machine in
/-- Settles O18: quotient and remainder of words are words. -/
theorem unsignedDivision : Obligations.UnsignedDivision := by
  unfold Obligations.UnsignedDivision
  intro rs rt s h0
  have hpos : 0 < (s.reg rt).toNat := Nat.pos_of_ne_zero fun h => h0 (BitVec.eq_of_toNat_eq h)
  have hq : (s.reg rs).toNat / (s.reg rt).toNat < 2 ^ 32 :=
    Nat.lt_of_le_of_lt (Nat.div_le_self _ _) (s.reg rs).isLt
  have hr : (s.reg rs).toNat % (s.reg rt).toNat < (s.reg rt).toNat := Nat.mod_lt _ hpos
  obtain ⟨t, ht, hw⟩ := exec_writesHiLo (i := .divu rs rt) (execDivu_of_ne_zero h0)
  refine ⟨t, _, _, ht, hw, ?_, ?_⟩
  · rw [BitVec.toNat_ofNat, BitVec.toNat_ofNat, Nat.mod_eq_of_lt hq,
      Nat.mod_eq_of_lt (Nat.lt_trans hr (s.reg rt).isLt), Nat.mul_comm, Nat.div_add_mod]
  · rw [BitVec.toNat_ofNat, Nat.mod_eq_of_lt (Nat.lt_trans hr (s.reg rt).isLt)]
    exact hr

open Machine in
/-- Settles O19: outside the overflow case the truncated quotient is a word, and the remainder always
is. -/
theorem signedDivision : Obligations.SignedDivision := by
  unfold Obligations.SignedDivision
  intro rs rt s h0 hov
  have hexec := execDiv_of_regular h0 hov
  rw [ofInt_remainder, ofInt_tdiv] at hexec
  obtain ⟨t, ht, hw⟩ := exec_writesHiLo (i := .div rs rt) hexec
  have hquot : ((s.reg rs).sdiv (s.reg rt)).toInt = (s.reg rs).toInt.tdiv (s.reg rt).toInt :=
    BitVec.toInt_sdiv_of_ne_or_ne _ _ (Decidable.not_and_iff_not_or_not.mp hov)
  refine ⟨t, _, _, ht, hw, ?_, ?_, ?_⟩
  · rw [hquot, BitVec.toInt_srem, Int.tdiv_mul_add_tmod]
  · rw [BitVec.toInt_srem, Int.natAbs_tmod]
    exact Nat.mod_lt _ (Int.natAbs_pos.mpr (mt toInt_eq_zero_iff.mp h0))
  · rw [BitVec.toInt_srem]
    exact tmod_sign _ _

open Machine in
/-- Settles O20: both divisions are then a commit alone. -/
theorem divisionByZeroLeavesHiAndLo : Obligations.DivisionByZeroLeavesHiAndLo := by
  unfold Obligations.DivisionByZeroLeavesHiAndLo
  intro rs rt s h0
  rw [exec, exec, execDiv_of_zero h0, execDivu_of_zero h0, commit_eq_writeHiLo]
  exact ⟨writeHiLo_writesHiLo s _ _, writeHiLo_writesHiLo s _ _⟩

open Machine in
/-- Settles O21: the overflow case asks `DIV_OVF`. -/
theorem signedDivisionOverflow : Obligations.SignedDivisionOverflow := by
  unfold Obligations.SignedDivisionOverflow
  intro rs rt s hs ht
  obtain ⟨hfault, hpair⟩ := execDiv_of_overflow hs ht
  exact ⟨fun lo hi hc => exec_writesHiLo (hpair lo hi hc), hfault⟩

open Machine in
/-- Settles O22: ADDU has ADD's meaning and SUBU has SUB's, and each is one register write of the
integer result modulo 2^32. -/
theorem sumsAndDifferencesWrap : Obligations.SumsAndDifferencesWrap := by
  unfold Obligations.SumsAndDifferencesWrap
  intro rd rs rt s
  constructor
  · obtain ⟨t, ht, hw⟩ := exec_writesReg (i := .add rd rs rt) (s := s) rfl (add_eq_ofNat _ _)
    exact ⟨t, ht, ht, hw⟩
  · obtain ⟨t, ht, hw⟩ := exec_writesReg (i := .sub rd rs rt) (s := s) rfl (sub_eq_ofInt _ _)
    exact ⟨t, ht, ht, hw⟩

open Machine in
/-- Settles O23: the bits of a word are those of its number, and NOR complements the 32 bits of OR. -/
theorem bitwiseOperations : Obligations.BitwiseOperations := by
  unfold Obligations.BitwiseOperations
  intro rd rs rt s
  refine ⟨exec_writesReg rfl ?_, exec_writesReg rfl ?_, exec_writesReg rfl ?_, exec_writesReg rfl ?_⟩
  · rw [BitVec.ofNat_and, ofNat_toNat_word, ofNat_toNat_word]
  · rw [BitVec.ofNat_or, ofNat_toNat_word, ofNat_toNat_word]
  · rw [BitVec.ofNat_xor, ofNat_toNat_word, ofNat_toNat_word]
  · rw [not_eq_ofNat, BitVec.toNat_or]

open Machine in
/-- Settles O24: the immediate keeps its signed value under sign extension. -/
theorem setOnLessThan : Obligations.SetOnLessThan := by
  unfold Obligations.SetOnLessThan
  intro rd rs rt imm s
  refine ⟨exec_writesReg rfl (conditionWord_signedLess _ _), exec_writesReg rfl ?_⟩
  rw [conditionWord_signedLess, toInt_signExtend16]

open Machine in
/-- Settles O25: each taken-condition is the rule's, and bit 31 is the sign. -/
theorem branchesCountFromThemselves : Obligations.BranchesCountFromThemselves := by
  unfold Obligations.BranchesCountFromThemselves
  intro rs rt imm s
  refine ⟨exec_onlyGoesTo_branch rfl beq_iff_eq, exec_onlyGoesTo_branch rfl bne_iff_ne,
    exec_onlyGoesTo_branch rfl getLsbD_31_iff, exec_onlyGoesTo_branch rfl ?_⟩
  rw [bgezTaken, Bool.not_eq_true', ← Bool.not_eq_true, getLsbD_31_iff, Int.not_lt]

open Machine in
/-- Settles O26: the mode chooses between the signed comparison with 0 and the open predicate. -/
theorem branchesOnSignInBothModes : Obligations.BranchesOnSignInBothModes := by
  unfold Obligations.BranchesOnSignInBothModes
  intro rs imm s
  constructor
  · intro hmode
    exact ⟨exec_onlyGoesTo_branch rfl (by simp [blezTaken, hmode]),
      exec_onlyGoesTo_branch rfl (by simp [bgtzTaken, hmode])⟩
  · intro hmode
    exact ⟨exec_onlyGoesTo_branch rfl (by simp [blezTaken, hmode]),
      exec_onlyGoesTo_branch rfl (by simp [bgtzTaken, hmode])⟩

open Machine in
/-- Settles O27: both jumps commit to the jump target, and JAL links before it. -/
theorem jumpsStayInTheirRegion : Obligations.JumpsStayInTheirRegion := by
  unfold Obligations.JumpsStayInTheirRegion
  intro target s
  rw [← jumpTarget_eq_ofNat]
  exact ⟨⟨_, rfl, onlyGoesTo_commitTo s _⟩,
    ⟨_, rfl, writesReg_setReg_commitTo s linkRegister _ _⟩⟩

open Machine in
/-- Settles O29: the immediate is its number, in the lower half or in the upper. -/
theorem logicalImmediates : Obligations.LogicalImmediates := by
  unfold Obligations.LogicalImmediates
  intro rt rs imm s
  refine ⟨exec_writesReg rfl ?_, exec_writesReg rfl ?_, exec_writesReg rfl ?_,
    exec_writesReg rfl (upperImmediate_eq_ofNat imm)⟩
  · rw [BitVec.ofNat_and, ofNat_toNat_word, zeroExtend16_eq_ofNat]
  · rw [BitVec.ofNat_or, ofNat_toNat_word, zeroExtend16_eq_ofNat]
  · rw [BitVec.ofNat_xor, ofNat_toNat_word, zeroExtend16_eq_ofNat]

end Sys2Proof
end

section
/-! SUPPORT. The proof that register 0 is an ordinary register (spec/10_state.md R17). -/

namespace Sys2Proof

namespace Machine

/-! ## Each shape of a meaning under the exchange of register 0 with another -/

theorem writeHiLo_swapZero (k : RegIndex) (s : State) (h l : Word) :
    writeHiLo (s.swapZero k) h l = mapNext (State.swapZero k) (writeHiLo s h l) := rfl

theorem loadSubword_swapZero (k : RegIndex) (s : State) (ea : Word) (size : SubwordSize)
    (extract : Word → Nat → Word) :
    loadSubword (s.swapZero k) ea size extract = loadSubword s ea size extract := rfl

theorem execSw_swapZero (k rt rs : RegIndex) (imm : Imm16) (s : State) :
    execSw (swapZero k rt) (swapZero k rs) imm (s.swapZero k) =
      mapNext (State.swapZero k) (execSw rt rs imm s) := by
  rw [execSw_eq, execSw_eq, effectiveAddress_swapZero, State.reg_swapZero_swapZero, memWrite_swapZero,
    finishStore_swapZero]

theorem execDiv_swapZero (k rs rt : RegIndex) (s : State) :
    execDiv (swapZero k rs) (swapZero k rt) (s.swapZero k) =
      mapNext (State.swapZero k) (execDiv rs rt s) := by
  have hs := State.reg_swapZero_swapZero k rs s
  have ht := State.reg_swapZero_swapZero k rt s
  by_cases h0 : s.reg rt = 0
  · rw [execDiv_of_zero h0, execDiv_of_zero (ht.trans h0)]
    rfl
  · by_cases hov : s.reg rs = 0x80000000 ∧ s.reg rt = 0xFFFFFFFF
    · obtain ⟨hfault, hpair⟩ := execDiv_of_overflow hov.1 hov.2
      obtain ⟨hfault', hpair'⟩ := execDiv_of_overflow (hs.trans hov.1) (ht.trans hov.2)
      cases hc : s.config.divOvf with
      | fault =>
        rw [hfault hc, hfault' hc]
        rfl
      | pair lo hi =>
        rw [hpair lo hi hc, hpair' lo hi hc]
        rfl
    · rw [execDiv_of_regular h0 hov, execDiv_of_regular (by rwa [ht]) (by rwa [hs, ht]), hs, ht]
      rfl

theorem execDivu_swapZero (k rs rt : RegIndex) (s : State) :
    execDivu (swapZero k rs) (swapZero k rt) (s.swapZero k) =
      mapNext (State.swapZero k) (execDivu rs rt s) := by
  have hs := State.reg_swapZero_swapZero k rs s
  have ht := State.reg_swapZero_swapZero k rt s
  by_cases h0 : s.reg rt = 0
  · rw [execDivu_of_zero h0, execDivu_of_zero (ht.trans h0)]
    rfl
  · rw [execDivu_of_ne_zero h0, execDivu_of_ne_zero (by rwa [ht]), hs, ht]
    rfl

/-- The register SYSCALL reads is not register 0; if it is not `k` either, the exchange leaves it. -/
theorem execSyscall_swapZero {k : RegIndex} (s : State) (hk : haltRegister ≠ k) :
    execSyscall (s.swapZero k) = mapNext (State.swapZero k) (execSyscall s) := by
  unfold execSyscall
  rw [State.reg_swapZero, swapZero_of_ne (by decide) hk]
  rfl

/-- The register JAL writes is not register 0; if it is not `k` either, the exchange leaves it. -/
theorem execJal_swapZero {k : RegIndex} (target : Target) (s : State) (hk : linkRegister ≠ k) :
    execJal target (s.swapZero k) = mapNext (State.swapZero k) (execJal target s) := by
  simp only [execJal, mapNext, State.swapZero_commitTo, State.swapZero_setReg,
    swapZero_of_ne (show linkRegister ≠ 0 by decide) hk, State.swapZero_pc]

/-- R17: every instruction commutes with the exchange of register 0 and another, but for the register
that SYSCALL or JAL uses unnamed. -/
theorem exec_swapZero {i : Instr} {k : RegIndex} (s : State) (h : fixedRegister i ≠ some k) :
    exec (renameRegs (swapZero k) i) (s.swapZero k) = mapNext (State.swapZero k) (exec i s) := by
  cases i with
  | syscall => exact execSyscall_swapZero s fun e => h (congrArg some e)
  | jal target => exact execJal_swapZero target s fun e => h (congrArg some e)
  | j target => rfl
  | jr | jalr =>
    simp only [renameRegs, exec, execJr, execJalr, mapNext, State.reg_swapZero_swapZero,
      State.swapZero_commitTo, State.swapZero_setReg, State.swapZero_pc]
  | mthi | mtlo =>
    simp only [renameRegs, exec, execMthi, execMtlo, mapNext, State.reg_swapZero_swapZero,
      State.swapZero_commit, State.swapZero_setHi, State.swapZero_setLo]
  | mult | multu =>
    simp only [renameRegs, exec, execMult, execMultu, writeProduct, writeHiLo_swapZero,
      State.reg_swapZero_swapZero]
  | div rs rt => exact execDiv_swapZero k rs rt s
  | divu rs rt => exact execDivu_swapZero k rs rt s
  | bltz | bgez | beq | bne | blez | bgtz =>
    simp only [renameRegs, exec, execBltz, execBgez, execBeq, execBne, execBlez, execBgtz,
      branchIf_swapZero, State.reg_swapZero_swapZero, State.swapZero_config]
  | lb | lh | lw =>
    simp only [renameRegs, exec, execLb, execLh, execLw, finishLoad_swapZero, effectiveAddress_swapZero,
      loadSubword_swapZero, memRead_swapZero]
  | sb | sh =>
    simp only [renameRegs, exec, execSb, execSh, effectiveAddress_swapZero, State.reg_swapZero_swapZero,
      storeSubword_swapZero, finishStore_swapZero]
  | sw rt rs imm => exact execSw_swapZero k rt rs imm s
  | sll | srl | sra | mfhi | mflo | add | addu | sub | subu | and | or | xor | nor | slt
  | addi | addiu | slti | andi | ori | xori | lui =>
    simp only [renameRegs, exec, execSll, execSrl, execSra, execMfhi, execMflo, execAdd, execAddu, execSub,
      execSubu, execAnd, execOr, execXor, execNor, execSlt, execAddi, execAddiu, execSlti, execAndi,
      execOri, execXori, execLui, writeReg_swapZero, State.reg_swapZero_swapZero, State.swapZero_config,
      State.swapZero_hi, State.swapZero_lo]

/-- A register write of the value the register has changes only the PC and the count. -/
theorem WritesReg.onlyGoesTo {d : RegIndex} {pc' : Word} {s t : State}
    (h : WritesReg d (s.reg d) pc' s t) : OnlyGoesTo pc' s.run s t where
  regs r := by
    by_cases hr : r = d
    · rw [hr, h.dest]
    · exact h.others r hr
  hi      := h.hi
  lo      := h.lo
  run     := h.run
  memory  := h.memory
  keeps   := h.keeps
  commits := h.commits

end Machine

open Machine in
/-- Settles O40: every accessor and every update commutes with the exchange; ADD then OR carries the
sum through register 0; and the zero word shifts register 0 by 0 into itself. -/
theorem registerZeroIsOrdinary : Obligations.RegisterZeroIsOrdinary := by
  unfold Obligations.RegisterZeroIsOrdinary
  refine ⟨fun i k s h => exec_swapZero s h, fun rs rt rd s => ?sum, fun s => ?noop⟩
  case sum =>
    obtain ⟨t, ht, hwt⟩ := exec_writesReg (i := .add 0 rs rt) (s := s) rfl rfl
    obtain ⟨u, hu, hwu⟩ := exec_writesReg (i := .or rd 0 0) (s := t) rfl BitVec.or_self
    exact ⟨t, u, ht, hwt.dest, hu, hwu.dest.trans hwt.dest⟩
  case noop =>
    obtain ⟨t, ht, hw⟩ := exec_writesReg (i := .sll 0 0 0) (s := s) rfl (BitVec.shiftLeft_zero _)
    exact ⟨t, rfl, ht, hw.onlyGoesTo⟩

end Sys2Proof
end
